-- ==== Sys2Proof/Word.lean ====
section
/-! DEFINITION. The word types of the block (00_scope.md R8, R10) and nothing else. -/

namespace Sys2Proof

/-- A 4-bit selection code (30_encoding.md R72). -/
abbrev Code := BitVec 4

/-- The 8-bit unit of one serial transfer (00_scope.md R8, `BYTE_W`). -/
abbrev Byte := BitVec 8

/-- A 16-bit ROM word, which is a sample (00_scope.md R8, `SAMPLE_W`). -/
abbrev Word := BitVec 16

/-- One cell of the waveform ROM: a flat word address and the word there (20_memory.md R53, R61; log 8). -/
abbrev RomCell := Nat × Word

end Sys2Proof
end

