-- ==== Sys2Proof/Config.lean ====
section
/-! DEFINITION. The instance parameters of 00_scope.md R7 and R8, the pins of 10_state.md R19, and the free values.
A free value is an opaque constant with no body: nothing can be proved about which value it is. -/

namespace Sys2Proof

/-- The three tables of the ROM (40_waveform_rom.md R96, R97), numbered in the order the source lists them. -/
inductive Table where
  | t0
  | t1
  | t2
deriving DecidableEq, Repr

/-- `SEL_MAP` as data: the code that selects each table. A partial injective map onto the three tables is exactly
three different codes (30_encoding.md R73); `SelMap.legal` holds the constraints. (log 13) -/
structure SelMap where
  code0 : Code
  code1 : Code
  code2 : Code
deriving DecidableEq, Repr

/-- The parameters of one instance (00_scope.md R7, R8), fixed when the block is built: no edge writes them.
`F_CLK` is `P * F_TICK`, and the widths `IDX_W` and `TCNT_W` follow from `L` and `P`. (log 1) -/
structure Config where
  /-- Table length, samples per table. -/
  L : Nat
  /-- Tick period in `clk` cycles (`TICK_PERIOD`). -/
  P : Nat
  /-- `clk` cycles per half period of the serial clock (`SCLK_HALF`). -/
  H : Nat
  /-- Tick rate (`F_TICK`). It enters only through the real-time reading `F_CLK = P * F_TICK`; no edge reads it.
  DESIGN CHOICE (log 19): a whole number of Hz, which 00_scope.md R8 does not ask for. -/
  fTick : Nat
  selMap : SelMap
  /-- The words of the ROM by flat word address, lowest address first. -/
  rom : List RomCell
deriving DecidableEq, Repr

/-- The input pins as the environment drives them at one edge (10_state.md R19). `unsettled` marks the bits of `sel`
that change inside the setup or hold window of this edge (42_scheduler.md R139; log 3). -/
structure Pins where
  rst : Bool
  sel : Code
  unsettled : Code
  timerRun : Bool
  tickIe : Bool
  gie : Bool
deriving DecidableEq, Repr, Inhabited

/-- FREE VALUE (00_scope.md R15, R220): the pin levels at an edge the list in State says nothing of. (log 2) -/
opaque Config.freePins : Nat → Pins

/-- FREE VALUE (42_scheduler.md R139): the level each unsettled bit of `sel` is captured with. (log 3) -/
opaque Config.freeCapture : Nat → Code

/-- FREE VALUE (00_scope.md R8, OPEN `P`): the tick period of the reset instance, less one. (log 4) -/
opaque Config.freePeriod : Nat

/-- FREE VALUE (00_scope.md R8, OPEN `H`): the half period of the reset instance, less one. (log 4) -/
opaque Config.freeHalf : Nat

/-- FREE VALUE (00_scope.md R8, OPEN `ROM`): a word of the reset instance's ROM, by flat address. (log 4) -/
opaque Config.freeRomWord : Nat → Word

/-- The reference map of 30_encoding.md R74. -/
def SelMap.reference : SelMap := ⟨0b0000#4, 0b0001#4, 0b0010#4⟩

/-- The ROM of the reset instance: the two words the source gives (40_waveform_rom.md R98), the other 94 free. -/
def Config.referenceRom : List RomCell :=
  [(0, 0x17FF#16), (1, 0x1972#16)] ++
    (List.range 94).map (fun k => (k + 2, Config.freeRomWord (k + 2)))

/-- The instance State.reset stands for: reference values of 00_scope.md R8 where it gives one, free values elsewhere,
with `P >= 1` and `H >= 1` as R8 asks. (log 4) -/
def Config.reference : Config where
  L := 32
  P := Config.freePeriod + 1
  H := Config.freeHalf + 1
  fTick := 32000
  selMap := SelMap.reference
  rom := Config.referenceRom

end Sys2Proof
end

