-- ==== Sys2Proof/Syntax.lean ====
section
/-! DEFINITION. The four service forms, the block's instructions (00_scope.md R16; 30_encoding.md R80). -/

namespace Sys2Proof

/-- One constructor per mnemonic of opcode_table.json. SVC_NONE stands for its three rows and holds the code it was
selected by; the data forms have one code each under any map that meets 30_encoding.md R73. -/
inductive Instr where
  /-- SVC_T0 (42_scheduler.md R140). -/
  | svcT0
  /-- SVC_T1 (42_scheduler.md R141). -/
  | svcT1
  /-- SVC_T2 (42_scheduler.md R142). -/
  | svcT2
  /-- SVC_NONE (42_scheduler.md R143). -/
  | svcNone (c : Code)
deriving DecidableEq, Repr

end Sys2Proof
end

