-- ==== Sys2Proof/WellFormed.lean ====
section
/-! DEFINITION. Which parameters and which instructions are legal. -/

namespace Sys2Proof

/-- The constraints on `SEL_MAP`: injective, three codes, 0b0000 among them and 0b0011 not
(30_encoding.md R73; 92_eei_decisions.md, open parameters). -/
def SelMap.legal (m : SelMap) : Bool :=
  decide (m.code0 ≠ m.code1) && decide (m.code0 ≠ m.code2) && decide (m.code1 ≠ m.code2) &&
  (decide (m.code0 = 0b0000#4) || decide (m.code1 = 0b0000#4) || decide (m.code2 = 0b0000#4)) &&
  decide (m.code0 ≠ 0b0011#4) && decide (m.code1 ≠ 0b0011#4) && decide (m.code2 ≠ 0b0011#4)

/-- The canonical form of the ROM: exactly the flat addresses 0 to 3*L - 1, each once, in rising order
(20_memory.md R51, R61, R62; 40_waveform_rom.md R96). An address not listed holds no word. -/
def romWf (L : Nat) (rom : List RomCell) : Bool :=
  rom.map Prod.fst == List.range (3 * L)

/-- The memory of an instance is in its canonical form: the block's one memory is the ROM (20_memory.md R51). -/
abbrev Memory.wf (c : Config) : Bool := romWf c.L c.rom

/-- A legal instance: the ranges of 00_scope.md R8, a legal map and a whole ROM. `P >= 11 + 32*H` is not asked: an
instance outside the timing envelope is legal (70_reset_and_hazards.md R224). DESIGN CHOICE (log 20): the two words the
source gives are not asked for either, so an instance with any two words there is legal; `sourceWords` asks for them apart.
What is illegal is log 15. -/
def Config.legal (c : Config) : Bool :=
  decide (1 ≤ c.L) && decide (1 ≤ c.P) && decide (1 ≤ c.H) && decide (1 ≤ c.fTick) &&
  c.selMap.legal && Memory.wf c

/-- An instruction is well formed under a legal map; SVC_NONE moreover holds a code outside the map's domain
(30_encoding.md R73, R80). -/
def Instr.wf (m : SelMap) : Instr → Bool
  | .svcT0 => m.legal
  | .svcT1 => m.legal
  | .svcT2 => m.legal
  | .svcNone c => m.legal && decide (c ≠ m.code0) && decide (c ≠ m.code1) && decide (c ≠ m.code2)

end Sys2Proof
end

