-- ==== Sys2Proof/Decode.lean ====
section
/-! DEFINITION. The decoder of the selection code, and after it the encoder (30_encoding.md R72, R73, R80). -/

namespace Sys2Proof

/-- `SEL_MAP` as a partial function on codes: the table of a defined code (30_encoding.md R73). -/
def SelMap.table (m : SelMap) (c : Code) : Option Table :=
  if c = m.code0 then some .t0
  else if c = m.code1 then some .t1
  else if c = m.code2 then some .t2
  else none

/-- The service form a code selects. Every one of the 16 codes selects one (30_encoding.md R80, R81). -/
def decode (m : SelMap) (c : Code) : Instr :=
  match m.table c with
  | some .t0 => .svcT0
  | some .t1 => .svcT1
  | some .t2 => .svcT2
  | none => .svcNone c

/-- Why bits that come as bytes are no selection code. -/
inductive DecodeReject where
  /-- Fewer than the 4 bits of format SEL. -/
  | tooShort
  /-- A bit above `c[3]` is set: format SEL has 4 bits (30_encoding.md R71, R72; log 12). -/
  | notACode
deriving DecidableEq, Repr

/-- The decoder on any bits: a code of format SEL is `c = bits[3:0]` with nothing above it. -/
def decodeBits (m : SelMap) (nbits w : Nat) : Except DecodeReject Instr :=
  if nbits < 4 then .error .tooShort
  else if 16 ≤ w then .error .notACode
  else .ok (decode m (BitVec.ofNat 4 w))

/-- What the decoder reads from a row of opcode_table.json, whose rows hold under the reference map
(30_encoding.md R74, R80). -/
def decodeTableWord (nbits w : Nat) : Option Instr :=
  match decodeBits SelMap.reference nbits w with
  | .ok i => some i
  | .error _ => none

/-- One row of opcode_table.json: the codes `c` with `c AND mask = match` select the form named. -/
structure OpcodeRow where
  mnemonic : String
  pat : Code
  mask : Code
deriving DecidableEq, Repr

/-- The rows of opcode_table.json, under the reference map (30_encoding.md R80). -/
def opcodeRows : List OpcodeRow :=
  [⟨"SVC_T0", 0x0#4, 0xF#4⟩, ⟨"SVC_T1", 0x1#4, 0xF#4⟩, ⟨"SVC_T2", 0x2#4, 0xF#4⟩,
   ⟨"SVC_NONE", 0x3#4, 0xF#4⟩, ⟨"SVC_NONE", 0x4#4, 0xC#4⟩, ⟨"SVC_NONE", 0x8#4, 0x8#4⟩]

/-- Whether a row is selected by a code. -/
def OpcodeRow.hit (r : OpcodeRow) (c : Code) : Bool := decide (c &&& r.mask = r.pat)

/-- A form's mnemonic. -/
def Instr.mnemonic : Instr → String
  | .svcT0 => "SVC_T0"
  | .svcT1 => "SVC_T1"
  | .svcT2 => "SVC_T2"
  | .svcNone _ => "SVC_NONE"

/-- The table a form sends from; none for the silent form (30_encoding.md R80). -/
def Instr.table : Instr → Option Table
  | .svcT0 => some .t0
  | .svcT1 => some .t1
  | .svcT2 => some .t2
  | .svcNone _ => none

/-- The code that selects a form under a map (30_encoding.md R73, R80). -/
def encode (m : SelMap) : Instr → Code
  | .svcT0 => m.code0
  | .svcT1 => m.code1
  | .svcT2 => m.code2
  | .svcNone c => c

end Sys2Proof
end

