-- ==== Sys2Proof/Machine/State.lean ====
section
/-! DEFINITION. The whole state of the block (10_state.md R21), the stops, and the state after reset
(70_reset_and_hazards.md R216). -/

namespace Sys2Proof.Machine

/-- The service state `st` (10_state.md R23). `illegal k` is the code `10 + k`, which no reachable state holds and
from which the hardware recovers (42_scheduler.md R137; log 9). `phaseCode` gives the encoding of 30_encoding.md R78. -/
inductive Phase where
  | idle
  | assertCs
  | select
  | txhLoad
  | txhWait
  | txlLoad
  | txlWait
  | advance
  | deassertCs
  | exit
  | illegal (k : Fin 6)
deriving DecidableEq, Repr

/-- The registers the service state machine writes. -/
structure Scheduler where
  /-- `st`, the service state. -/
  st : Phase
  /-- `dbg_q`, the debug strobe level. -/
  dbgQ : Bool
  /-- `cs_n_q`, the chip-select level, true when de-asserted. -/
  csNQ : Bool
  /-- `idx`, the PlaybackIndex, a register of `IDX_W` bits (`State.fits`; log 10). -/
  idx : Nat
  /-- `word_q`, the sample latched for the data frame in progress. -/
  wordQ : Word
deriving DecidableEq, Repr

/-- The tick timer and the two flags its expiry sets. -/
structure Timer where
  /-- `tcnt`, the down-counter of `TCNT_W` bits (`State.fits`; log 10). -/
  tcnt : Nat
  /-- `tick_pend`: a tick has expired and its service has not started. -/
  tickPend : Bool
  /-- `overrun_q`: an overrun has occurred since reset (sticky). -/
  overrunQ : Bool
deriving DecidableEq, Repr

/-- The registers of the serial-transmit engine (43_serial_tx.md R162). -/
structure Serial where
  busy : Bool
  sh : Byte
  bitcnt : BitVec 3
  /-- `divcnt`, the half-period divider of `max(1, ceil(log2 H))` bits (`State.fits`; log 10). -/
  divcnt : Nat
  sclkQ : Bool
  mosiQ : Bool
deriving DecidableEq, Repr

/-- The machine. `ctl`, `tmr`, `ser`, `sync1` and `sync2` are the registers of 10_state.md R21; `cfg` holds the instance
parameters (log 1); `env` and `draws` are the model's own (log 2). -/
structure State where
  cfg : Config
  ctl : Scheduler
  tmr : Timer
  ser : Serial
  /-- First stage of the selection synchronizer. -/
  sync1 : Code
  /-- Second stage, the code the service reads. -/
  sync2 : Code
  /-- The pin levels at the coming edges, earliest first; past its end the levels are free values. -/
  env : List Pins
  /-- How many edges have been taken: the argument of the free values, set back by nothing. -/
  draws : Nat
deriving DecidableEq, Repr

/-- The stops with a fault. -/
inductive Fault where
  /-- Raised by a data form (SVC_T0, SVC_T1, SVC_T2) at its SELECT edge when the ROM address it forms holds no word:
  an index not below `L`, or a ROM that is not whole. The spec gives such an address no meaning (20_memory.md R62).
  Safe: no state reached from a legal reset raises it. (log 7) -/
  | romNoWord
deriving DecidableEq, Repr

/-- The refusals. -/
inductive Refusal where
  /-- Raised by exec's arm of an instruction that has no meaning yet; no arm does. Safe. -/
  | notModelled (mnemonic : String)
deriving DecidableEq, Repr

/-- The state machine's registers after reset (70_reset_and_hazards.md R216). -/
def Scheduler.reset : Scheduler where
  st := .idle
  dbgQ := false
  csNQ := true
  idx := 0
  wordQ := 0x0000#16

/-- The timer's registers after reset, for a period `P` (70_reset_and_hazards.md R216). -/
def Timer.reset (P : Nat) : Timer where
  tcnt := P - 1
  tickPend := false
  overrunQ := false

/-- The engine's registers after reset (70_reset_and_hazards.md R216). -/
def Serial.reset : Serial where
  busy := false
  sh := 0x00#8
  bitcnt := 0#3
  divcnt := 0
  sclkQ := false
  mosiQ := false

/-- The reset state of an instance (70_reset_and_hazards.md R216), with no pin level listed. -/
def State.resetOf (c : Config) : State where
  cfg := c
  ctl := Scheduler.reset
  tmr := Timer.reset c.P
  ser := Serial.reset
  sync1 := 0b0000#4
  sync2 := 0b0000#4
  env := []
  draws := 0

/-- The machine right after reset: the reset state of the reference instance (log 4). -/
def State.reset : State := State.resetOf Config.reference

end Sys2Proof.Machine
end

