-- ==== Sys2Proof/Machine/Operands.lean ====
section
/-! DEFINITION. The operands of the block: the pins at an edge, the captured code, the two operands of a service
(30_encoding.md R79), the ROM read (20_memory.md R52, R61), the word split (R76) and the state code (R78). -/

namespace Sys2Proof.Machine

/-- `ceil(log2 n)`, the least `w` with `n <= 2^w`. -/
def ceilLog2 (n : Nat) : Nat := if n ≤ 1 then 0 else Nat.log2 (n - 1) + 1

/-- The width of a counter with `n` values: `max(1, ceil(log2 n))` (00_scope.md R8, rows `IDX_W` and `TCNT_W`). -/
def counterWidth (n : Nat) : Nat := max 1 (ceilLog2 n)

/-- `IDX_W`, the width of `idx` (00_scope.md R8; 10_state.md R21). -/
def idxWidth (c : Config) : Nat := counterWidth c.L

/-- `TCNT_W`, the width of `tcnt` (00_scope.md R8; 10_state.md R21). -/
def tcntWidth (c : Config) : Nat := counterWidth c.P

/-- The width of `divcnt`, `max(1, ceil(log2 H))` (10_state.md R21). -/
def divcntWidth (c : Config) : Nat := counterWidth c.H

/-- The three registers whose width depends on a parameter hold values of their width (10_state.md R21; log 10). Every other
register has its width in its type. A state that does not fit is no state of the hardware. -/
abbrev State.fits (s : State) : Prop :=
  s.ctl.idx < 2 ^ idxWidth s.cfg ∧ s.tmr.tcnt < 2 ^ tcntWidth s.cfg ∧ s.ser.divcnt < 2 ^ divcntWidth s.cfg

/-- An unsigned result reduced to the width of its destination (00_scope.md R10). -/
def toWidth (w n : Nat) : Nat := n % 2 ^ w

/-- `F_CLK`, from `P = F_CLK / F_TICK` (00_scope.md R8; log 16), in whole Hz (log 19). -/
def fClk (c : Config) : Nat := c.P * c.fTick

/-- `t` as a number (40_waveform_rom.md R97). -/
def tableNum : Table → Nat
  | .t0 => 0
  | .t1 => 1
  | .t2 => 2

/-- The flat word address `t * L + i` (20_memory.md R61). -/
def romAddr (L : Nat) (t : Table) (i : Nat) : Nat := tableNum t * L + i

/-- The word at a flat address, none where the ROM has no word. -/
def romLookup : List RomCell → Nat → Option Word
  | [], _ => none
  | (a, w) :: rest, b => if a = b then some w else romLookup rest b

/-- `RomRead(t, i)` (20_memory.md R52), none for an index not below `L` (R58, R62). -/
def romRead (c : Config) (t : Table) (i : Nat) : Option Word :=
  if i < c.L then romLookup c.rom (romAddr c.L t i) else none

/-- The high byte `w >> 8` of a word (30_encoding.md R76). -/
def hiByte (w : Word) : Byte := w.extractLsb' 8 8

/-- The low byte `w & 0xFF` of a word (30_encoding.md R76). -/
def loByte (w : Word) : Byte := w.extractLsb' 0 8

/-- The 4-bit code of a service state (30_encoding.md R78). -/
def phaseCode : Phase → BitVec 4
  | .idle => 0
  | .assertCs => 1
  | .select => 2
  | .txhLoad => 3
  | .txhWait => 4
  | .txlLoad => 5
  | .txlWait => 6
  | .advance => 7
  | .deassertCs => 8
  | .exit => 9
  | .illegal k => BitVec.ofNat 4 (10 + k.val)

/-- The service state of a 4-bit code (30_encoding.md R78); codes 10 to 15 are illegal (R83). -/
def phaseOfCode (b : BitVec 4) : Phase :=
  match b.toNat with
  | 0 => .idle
  | 1 => .assertCs
  | 2 => .select
  | 3 => .txhLoad
  | 4 => .txhWait
  | 5 => .txlLoad
  | 6 => .txlWait
  | 7 => .advance
  | 8 => .deassertCs
  | 9 => .exit
  | n + 10 => .illegal (Fin.ofNat 6 n)

/-- The pin levels at the k-th coming edge, from 0: what the environment's list says, else a free value (log 2). -/
def State.pinsAt (s : State) (k : Nat) : Pins :=
  match s.env[k]? with
  | some p => p
  | none => Config.freePins (s.draws + k)

/-- `in`: the pin levels at the next edge (00_scope.md R11, R15). -/
def State.pins (s : State) : Pins := s.pinsAt 0

/-- The code captured from pins at an edge: a settled bit of `sel` as it stands, an unsettled bit a free draw
(42_scheduler.md R139; log 3). -/
def captureSel (p : Pins) (draw : Code) : Code :=
  if p.unsettled = 0b0000#4 then p.sel
  else (p.sel &&& ~~~p.unsettled) ||| (draw &&& p.unsettled)

/-- The code the synchronizer's first stage captures at the next edge. -/
def State.captured (s : State) : Code := captureSel s.pins (Config.freeCapture s.draws)

/-- The form the decoder shows: the code in `sync2` under the instance's map (30_encoding.md R79; log 5). -/
def State.fetched (s : State) : Instr := decode s.cfg.selMap s.sync2

/-- The byte of the start command at the next edge, if one is issued: the high byte in TXH_LOAD, the low byte in
TXL_LOAD, none in any other state (43_serial_tx.md R162; 42_scheduler.md R130, R132). -/
def Scheduler.txStart (c : Scheduler) : Option Byte :=
  match c.st with
  | .txhLoad => some (hiByte c.wordQ)
  | .txlLoad => some (loByte c.wordQ)
  | _ => none

/-- Whether the state code is one of 10 to 15. -/
def Phase.isIllegal : Phase → Bool
  | .illegal _ => true
  | _ => false

/-- The output pins (10_state.md R20). -/
structure OutPins where
  dbg : Bool
  csN : Bool
  sclk : Bool
  mosi : Bool
  overrun : Bool
deriving DecidableEq, Repr

/-- Each output pin is driven by its register (10_state.md R20). -/
def State.outputs (s : State) : OutPins where
  dbg := s.ctl.dbgQ
  csN := s.ctl.csNQ
  sclk := s.ser.sclkQ
  mosi := s.ser.mosiQ
  overrun := s.tmr.overrunQ

end Sys2Proof.Machine
end

