-- ==== Sys2Proof/Machine/Flags.lean ====
section
/-! DEFINITION. The start condition, the timer's expiry and the flags they write (10_state.md R28). `busy`, the third
flag, is written by the serial engine (Machine/Serial.lean). -/

namespace Sys2Proof.Machine

/-- The start condition `go` (42_scheduler.md R123). -/
def State.go (s : State) : Bool :=
  decide (s.ctl.st = .idle) && s.tmr.tickPend && s.pins.tickIe && s.pins.gie

/-- The timer's expiry at the next edge (60_exceptions.md R196). -/
def State.expire (s : State) : Bool :=
  s.pins.timerRun && decide (s.tmr.tcnt = 0)

/-- `tick_pend` after the edge (60_exceptions.md R197). -/
def State.tickPendNext (s : State) : Bool :=
  s.expire || (s.tmr.tickPend && !s.go)

/-- `overrun_q` after the edge (60_exceptions.md R188). -/
def State.overrunNext (s : State) : Bool :=
  s.tmr.overrunQ || (s.expire && (s.tmr.tickPend || decide (s.ctl.st ≠ .idle)))

end Sys2Proof.Machine
end

