-- ==== Sys2Proof/Machine/Serial.lean ====
section
/-! DEFINITION. The serial-transmit engine (43_serial_tx.md R164 to R168). -/

namespace Sys2Proof.Machine

/-- TX_BYTE start (43_serial_tx.md R165). -/
def Serial.start (H : Nat) (d : Byte) : Serial where
  busy := true
  sh := d
  bitcnt := 0#3
  divcnt := H - 1
  sclkQ := false
  mosiQ := d.getLsbD 7

/-- The clock toggle (43_serial_tx.md R167). -/
def Serial.toggle (H : Nat) (e : Serial) : Serial :=
  if e.sclkQ = false then
    { e with divcnt := H - 1, sclkQ := true }
  else if e.bitcnt = 7#3 then
    { e with divcnt := H - 1, sclkQ := false, busy := false }
  else
    { e with divcnt := H - 1, sclkQ := false, bitcnt := e.bitcnt + 1#3,
             sh := e.sh <<< 1, mosiQ := e.sh.getLsbD 6 }

/-- An edge of a byte in flight: the divider counts, or the clock toggles (43_serial_tx.md R166, R167). -/
def Serial.shift (H : Nat) (e : Serial) : Serial :=
  if 0 < e.divcnt then { e with divcnt := e.divcnt - 1 } else e.toggle H

/-- Forced idle at an illegal state code; `mosi_q` holds (43_serial_tx.md R168). -/
def Serial.forceIdle (e : Serial) : Serial :=
  { e with busy := false, sclkQ := false, bitcnt := 0#3, divcnt := 0, sh := 0x00#8 }

/-- The engine at an edge that is not a reset edge: exactly one of R164 to R168 applies. A start command comes first,
also while busy (43_serial_tx.md R165; log 11). -/
def Serial.next (H : Nat) (c : Scheduler) (e : Serial) : Serial :=
  if c.st.isIllegal then e.forceIdle
  else match c.txStart with
    | some d => Serial.start H d
    | none => if e.busy then e.shift H else e

end Sys2Proof.Machine
end

