-- ==== Sys2Proof/Machine/Ops.lean ====
section
/-! DEFINITION. The shared operations: entry into a service and return from it, the index advance, the tick timer, the
state machine, the synchronizer, and one edge of the block put together from them (42_scheduler.md R122). -/

namespace Sys2Proof.Machine

/-- TAKING THE INTERRUPT: entry into a service (60_exceptions.md R194). Nothing is saved and there is no vector; the
pending flag is cleared by `State.tickPendNext`. -/
def Scheduler.enter (c : Scheduler) : Scheduler := { c with st := .assertCs, dbgQ := true }

/-- RETURN FROM THE INTERRUPT: the EXIT edge (60_exceptions.md R195; 42_scheduler.md R136). It restores nothing. -/
def Scheduler.leave (c : Scheduler) : Scheduler := { c with st := .idle, dbgQ := false }

/-- The index advance `(idx = L-1) ? 0 : idx + 1` in a register of `IDX_W` bits (41_playback_index.md R112, R113;
log 10). -/
def advanceIdx (L i : Nat) : Nat :=
  if i = L - 1 then 0 else toWidth (counterWidth L) (i + 1)

/-- The latch of the ROM word, or the silent path (42_scheduler.md R129; 40_waveform_rom.md R102, R103). -/
def Scheduler.dispatch (mux : Option Word) (c : Scheduler) : Scheduler :=
  match mux with
  | some w => { c with wordQ := w, st := .txhLoad }
  | none => { c with st := .advance }

/-- The state machine at an edge that is not a reset edge: one case per state rule, 42_scheduler.md R127 to R137.
`mux` is the word the form's table shows at the index (40_waveform_rom.md R101), none for the silent form; only SELECT
reads it. -/
def Scheduler.next (L : Nat) (go busy : Bool) (mux : Option Word) (c : Scheduler) : Scheduler :=
  match c.st with
  | .idle => if go then c.enter else c
  | .assertCs => { c with csNQ := false, st := .select }
  | .select => c.dispatch mux
  | .txhLoad => { c with st := .txhWait }
  | .txhWait => if busy then c else { c with st := .txlLoad }
  | .txlLoad => { c with st := .txlWait }
  | .txlWait => if busy then c else { c with st := .advance }
  | .advance => { c with idx := advanceIdx L c.idx, st := .deassertCs }
  | .deassertCs => { c with csNQ := true, st := .exit }
  | .exit => c.leave
  | .illegal _ => { c with st := .idle, dbgQ := false, csNQ := true }

/-- `tcnt` after an edge that is not a reset edge (60_exceptions.md R196). -/
def tcntNext (P : Nat) (run : Bool) (n : Nat) : Nat :=
  if run then (if n = 0 then P - 1 else n - 1) else n

/-- The timer and its two flags after the edge (60_exceptions.md R196, R197, R188). -/
def State.timerNext (s : State) : Timer where
  tcnt := tcntNext s.cfg.P s.pins.timerRun s.tmr.tcnt
  tickPend := s.tickPendNext
  overrunQ := s.overrunNext

/-- One edge that is not a reset edge, every part from pre-edge values (42_scheduler.md R122; R138 for `sync1` and
`sync2`). The environment's list moves on by one edge (log 2). -/
def State.edge (mux : Option Word) (s : State) : State where
  cfg := s.cfg
  ctl := s.ctl.next s.cfg.L s.go s.ser.busy mux
  tmr := s.timerNext
  ser := s.ser.next s.cfg.H s.ctl
  sync1 := s.captured
  sync2 := s.sync1
  env := s.env.tail
  draws := s.draws + 1

/-- A reset edge: every register at its reset value, the ROM and the parameters unaffected
(70_reset_and_hazards.md R216; 20_memory.md R54). -/
def State.resetEdge (s : State) : State where
  cfg := s.cfg
  ctl := Scheduler.reset
  tmr := Timer.reset s.cfg.P
  ser := Serial.reset
  sync1 := 0b0000#4
  sync2 := 0b0000#4
  env := s.env.tail
  draws := s.draws + 1

/-- The edge under a data form: the multiplexer shows the form's table at the index (40_waveform_rom.md R101). The word
is used at SELECT only; a SELECT edge whose address holds no word stops (log 7). -/
def dataEdge (t : Table) (s : State) : Host.Outcome State Fault Refusal :=
  match s.ctl.st, romRead s.cfg t s.ctl.idx with
  | .select, none => .fault .romNoWord
  | _, mux => .next (s.edge mux)

/-- The edge under the silent form: no table is shown (42_scheduler.md R143). -/
def silentEdge (s : State) : Host.Outcome State Fault Refusal := .next (s.edge none)

/-- Pin levels with everything low but the selection code. -/
def quietPins (c : Code) : Pins where
  rst := false
  sel := c
  unsettled := 0b0000#4
  timerRun := false
  tickIe := false
  gie := false

/-- The state in which the next edge dispatches code `c`: `st` is SELECT, inside the open frame of a service
(10_state.md R32), `c` is in `sync2`, and the next edge is no reset edge. (log 6) -/
def State.placeCode (s : State) (c : Code) : State :=
  { s with
    ctl := { s.ctl with st := .select, dbgQ := true, csNQ := false }
    sync2 := c
    env := match s.env with
      | [] => [quietPins c]
      | p :: rest => { p with rst := false } :: rest }

end Sys2Proof.Machine
end

