-- ==== Sys2Proof/Machine/Services.lean ====
section
/-! DEFINITION. The meanings of the four service forms, each the edge the block takes while its decoder shows that form.
Iterated from the start edge of a service they give the timelines of 42_scheduler.md R140 to R143 (log 5). -/

namespace Sys2Proof.Machine

/-- SVC_T0: a data frame from table 0 (42_scheduler.md R140). -/
def execSvcT0 (s : State) : Host.Outcome State Fault Refusal := dataEdge .t0 s

/-- SVC_T1: a data frame from table 1 (42_scheduler.md R141). -/
def execSvcT1 (s : State) : Host.Outcome State Fault Refusal := dataEdge .t1 s

/-- SVC_T2: a data frame from table 2 (42_scheduler.md R142). -/
def execSvcT2 (s : State) : Host.Outcome State Fault Refusal := dataEdge .t2 s

/-- SVC_NONE: the dummy frame (42_scheduler.md R143). Which undefined code selected it makes no difference. -/
def execSvcNone (s : State) : Host.Outcome State Fault Refusal := silentEdge s

end Sys2Proof.Machine
end

