-- ==== Sys2Proof/Machine/Dispatch.lean ====
section
/-! DEFINITION. One arm per service form. -/

namespace Sys2Proof.Machine

/-- The edge the block takes in state `s` while its decoder shows form `i`, no reset being asserted. -/
def exec (i : Instr) (s : State) : Host.Outcome State Fault Refusal :=
  match i with
  | .svcT0 => Sys2Proof.Machine.execSvcT0 s
  | .svcT1 => Sys2Proof.Machine.execSvcT1 s
  | .svcT2 => Sys2Proof.Machine.execSvcT2 s
  | .svcNone _ => Sys2Proof.Machine.execSvcNone s

end Sys2Proof.Machine
end

