-- ==== Sys2Proof/Machine/Step.lean ====
section
/-! DEFINITION. One step is one rising edge of `clk` (00_scope.md R12; 42_scheduler.md R122). -/

namespace Sys2Proof.Machine

/-- One edge: reset overrides everything (60_exceptions.md R193), else the edge under the form in `sync2`. -/
def step (s : State) : Host.Outcome State Fault Refusal :=
  if s.pins.rst then .next s.resetEdge else exec s.fetched s

/-- The state whose very next step dispatches the table's word `w` (log 6). -/
def State.withFetchWord (s : State) (_nbits w : Nat) : State := s.placeCode (BitVec.ofNat 4 w)

end Sys2Proof.Machine
end

