-- ==== Sys2Proof/Machine/FrameLog.lean ====
section
/-! DEFINITION. How a claim observes a run (00_scope.md R17): the trace, the frame log of 43_serial_tx.md R176, and
counts of edges. None of it is state of the block. -/

namespace Sys2Proof.Machine

/-- `n` edges of the block, stopping at a stop (the host's `Core.run` of this machine, its state type written out). -/
def run : Nat → State → Host.Outcome State Fault Refusal
  | 0, s => .next s
  | n + 1, s =>
    match step s with
    | .next t => run n t
    | .fault r => .fault r
    | .refused r => .refused r

/-- The states of the next `n` edges: `s_0`, the state before the first, to `s_n`. A stop cuts it short. -/
def trace : Nat → State → List State
  | 0, s => [s]
  | n + 1, s =>
    match step s with
    | .next t => s :: trace n t
    | _ => [s]

/-- `n` edges taken under one form, whatever the decoder shows. -/
def serve (i : Instr) : Nat → State → Host.Outcome State Fault Refusal
  | 0, s => .next s
  | n + 1, s =>
    match exec i s with
    | .next t => serve i n t
    | .fault r => .fault r
    | .refused r => .refused r

/-- The states of `n` edges taken under one form. -/
def serveTrace (i : Instr) : Nat → State → List State
  | 0, s => [s]
  | n + 1, s =>
    match exec i s with
    | .next t => s :: serveTrace i n t
    | _ => [s]

/-- The bits of one frame in the order the DAC samples them. -/
abbrev Frame := List Bool

/-- The frame log: the closed frames, oldest first, and the open frame if there is one (43_serial_tx.md R176). -/
structure FrameLog where
  closed : List Frame
  opened : Option Frame
deriving DecidableEq, Repr

/-- The log before any frame. -/
def FrameLog.empty : FrameLog := ⟨[], none⟩

/-- `cs_n` from 1 to 0 opens a frame with no bit. -/
def FrameLog.openAt (a b : OutPins) (l : FrameLog) : FrameLog :=
  if a.csN && !b.csN then { l with opened := some [] } else l

/-- A rising `sclk` while `cs_n` is 0 after the edge appends the post-edge `mosi`. -/
def FrameLog.sampleAt (a b : OutPins) (l : FrameLog) : FrameLog :=
  if !b.csN && (!a.sclk && b.sclk) then { l with opened := l.opened.map (· ++ [b.mosi]) } else l

/-- `cs_n` from 0 to 1 closes the open frame. A frame whose opening the trace does not show is not recorded (log 17). -/
def FrameLog.closeAt (a b : OutPins) (l : FrameLog) : FrameLog :=
  if !a.csN && b.csN then
    match l.opened with
    | some f => { closed := l.closed ++ [f], opened := none }
    | none => l
  else l

/-- One edge of the log, from the pins before it and after it. -/
def FrameLog.scan (a b : OutPins) (l : FrameLog) : FrameLog :=
  ((l.openAt a b).sampleAt a b).closeAt a b

/-- The log of a trace of output pins, from a log so far. -/
def frameLogFrom : FrameLog → List OutPins → FrameLog
  | l, a :: b :: rest => frameLogFrom (l.scan a b) (b :: rest)
  | l, _ => l

/-- The frame log of a trace of states (43_serial_tx.md R176). -/
def frameLog (tr : List State) : FrameLog := frameLogFrom .empty (tr.map State.outputs)

/-- The bits of a byte, most significant first (20_memory.md R56). -/
def byteBits (b : Byte) : Frame :=
  [b.getLsbD 7, b.getLsbD 6, b.getLsbD 5, b.getLsbD 4, b.getLsbD 3, b.getLsbD 2, b.getLsbD 1, b.getLsbD 0]

/-- The byte of eight bits, most significant first. -/
def byteOfBits (b7 b6 b5 b4 b3 b2 b1 b0 : Bool) : Byte :=
  BitVec.ofBool b7 ++ BitVec.ofBool b6 ++ BitVec.ofBool b5 ++ BitVec.ofBool b4 ++
    BitVec.ofBool b3 ++ BitVec.ofBool b2 ++ BitVec.ofBool b1 ++ BitVec.ofBool b0

/-- A frame's bits grouped 8 at a time into bytes (43_serial_tx.md R176); bits short of a byte are left over. -/
def frameBytes : Frame → List Byte
  | b7 :: b6 :: b5 :: b4 :: b3 :: b2 :: b1 :: b0 :: rest =>
    byteOfBits b7 b6 b5 b4 b3 b2 b1 b0 :: frameBytes rest
  | _ => []

/-- The bits of a data frame: the high byte, then the low byte (20_memory.md R55; 30_encoding.md R77). -/
def wordBits (w : Word) : Frame := byteBits (hiByte w) ++ byteBits (loByte w)

/-- The frame the spec gives a service that read code `c` at index `i`: the word's bits for a defined code, no bit for
an undefined one (30_encoding.md R77; 42_scheduler.md R144). -/
def serviceFrame (c : Config) (code : Code) (i : Nat) : Frame :=
  match c.selMap.table code with
  | some t =>
    match romRead c t i with
    | some w => wordBits w
    | none => []
  | none => []

/-- How many edges of a trace start from a state with `f`. -/
def countEdges (f : State → Bool) : List State → Nat
  | a :: b :: rest => (if f a then 1 else 0) + countEdges f (b :: rest)
  | _ => 0

/-- The codes the SELECT edges of a trace read, oldest first (42_scheduler.md R129). -/
def selectedCodes : List State → List Code
  | a :: b :: rest =>
    if a.ctl.st = .select then a.sync2 :: selectedCodes (b :: rest) else selectedCodes (b :: rest)
  | _ => []

/-- The completed services of a trace: its EXIT edges (42_scheduler.md R121). -/
def completedServices (tr : List State) : Nat := countEdges (fun u => decide (u.ctl.st = .exit)) tr

/-- The timer expiries of a trace (60_exceptions.md R196). -/
def expiries (tr : List State) : Nat := countEdges State.expire tr

end Sys2Proof.Machine
end

