-- ==== Sys2Proof/Safety.lean ====
section
/-! DEFINITION. The predicates claims are stated in: faulted, the invariant of reachable states, the timing envelope. -/

namespace Sys2Proof.Machine

/-- A faulted state (60_exceptions.md R189). -/
def State.faulted (s : State) : Bool := s.tmr.overrunQ

/-- The states in which `cs_n` is low (10_state.md R32, item 5). -/
def Phase.frameOpen : Phase → Bool
  | .select => true
  | .txhLoad => true
  | .txhWait => true
  | .txlLoad => true
  | .txlWait => true
  | .advance => true
  | .deassertCs => true
  | _ => false

/-- The states that wait for the engine. -/
def Phase.waits : Phase → Bool
  | .txhWait => true
  | .txlWait => true
  | _ => false

/-- The invariant of reachable states, the seven items of 10_state.md R32, for a legal instance. -/
abbrev State.Inv (s : State) : Prop :=
  s.cfg.legal = true ∧
  s.ctl.st.isIllegal = false ∧
  s.ctl.idx < s.cfg.L ∧
  (s.tmr.tcnt < s.cfg.P ∧ s.ser.divcnt < s.cfg.H) ∧
  (s.ctl.dbgQ = true ↔ s.ctl.st ≠ .idle) ∧
  (s.ctl.csNQ = false ↔ s.ctl.st.frameOpen = true) ∧
  (s.ser.busy = true → s.ctl.st.waits = true) ∧
  (s.ser.sclkQ = true → s.ser.busy = true)

/-- The registers of a state are those after reset (70_reset_and_hazards.md R216), whatever the environment. -/
abbrev State.atReset (s : State) : Prop :=
  s.ctl = Scheduler.reset ∧ s.tmr = Timer.reset s.cfg.P ∧ s.ser = Serial.reset ∧
  s.sync1 = 0b0000#4 ∧ s.sync2 = 0b0000#4

/-- A conformant instance: inside the timing envelope (70_reset_and_hazards.md R224). -/
abbrev conformant (c : Config) : Prop := 11 + 32 * c.H ≤ c.P

/-- The two words the source gives (40_waveform_rom.md R98): entries 0 and 1 of the table that code 0b0000 selects. They are
a premise of their own and no part of `Config.legal` (log 20).
DESIGN CHOICE (log 18): at `L = 1` entry 1 does not exist, R98 is silent on that, and only the first word is asked for. -/
abbrev sourceWords (c : Config) : Prop :=
  ∀ t, c.selMap.table 0b0000#4 = some t →
    romRead c t 0 = some 0x17FF#16 ∧ (1 < c.L → romRead c t 1 = some 0x1972#16)

/-- What every edge that is not a reset edge does outside the state machine and the serial engine, whatever form it runs
under: the parameters and the ROM stay, the synchronizer moves on (42_scheduler.md R138), the timer and its flags follow
60_exceptions.md R196, R197 and R188, and the environment's list is read one edge further (log 2). -/
abbrev State.ticksTo (s t : State) : Prop :=
  t.cfg = s.cfg ∧ t.sync1 = s.captured ∧ t.sync2 = s.sync1 ∧
  t.tmr.tcnt = (if s.pins.timerRun then (if s.tmr.tcnt = 0 then s.cfg.P - 1 else s.tmr.tcnt - 1)
    else s.tmr.tcnt) ∧
  t.tmr.tickPend = (s.expire || (s.tmr.tickPend && !s.go)) ∧
  t.tmr.overrunQ = (s.tmr.overrunQ || (s.expire && (s.tmr.tickPend || decide (s.ctl.st ≠ .idle)))) ∧
  t.env = s.env.tail ∧ t.draws = s.draws + 1

/-- No reset at any of the next `n` edges. -/
abbrev State.noReset (s : State) (n : Nat) : Prop := ∀ k, k < n → (s.pinsAt k).rst = false

end Sys2Proof.Machine
end

