-- ==== Sys2Proof/Certificates/Slice0/Obligations.lean ====
section
/-! DEFINITION. The statements for the provers. Each docstring names the rule of spec/ it formalises, and says so where that
rule is the spec's own decision (92_eei_decisions.md) or inference, or where the clause is the model's choice (log n is
notes/assumptions/n.md). -/

open Sys2Proof Sys2Proof.Machine

/-! ## Reset -/

/-- 70_reset_and_hazards.md R216: a reset edge gives every register its value, whatever it held; the ROM and the parameters
stay (20_memory.md R54). R216 is the spec's own decision (D2, D27). -/
def Obligations.ResetEdgeWritesEveryRegister : Prop :=
  ∀ s : State, s.pins.rst = true → ∃ t, step s = .next t ∧
    t.ctl.st = .idle ∧ t.ctl.dbgQ = false ∧ t.ctl.csNQ = true ∧ t.ctl.idx = 0 ∧ t.ctl.wordQ = 0x0000#16 ∧
    t.sync1 = 0b0000#4 ∧ t.sync2 = 0b0000#4 ∧
    t.tmr.tcnt = s.cfg.P - 1 ∧ t.tmr.tickPend = false ∧ t.tmr.overrunQ = false ∧
    t.ser.busy = false ∧ t.ser.sh = 0x00#8 ∧ t.ser.bitcnt = 0#3 ∧ t.ser.divcnt = 0 ∧
    t.ser.sclkQ = false ∧ t.ser.mosiQ = false ∧ t.cfg = s.cfg

/-- 70_reset_and_hazards.md R218 (the spec's inference): the output pins after a reset edge, and of the reset state. -/
def Obligations.ResetPinsAreQuiet : Prop :=
  State.reset.outputs = ⟨false, true, false, false, false⟩ ∧
  ∀ s : State, s.pins.rst = true → ∃ t, step s = .next t ∧ t.outputs = ⟨false, true, false, false, false⟩

/-- 70_reset_and_hazards.md R217 (decision D2): while `rst` is held, the registers stay at their reset values; the timer does
not count, nothing becomes pending, no service starts. -/
def Obligations.HeldResetKeepsResetState : Prop :=
  ∀ (s : State) (n : Nat), 0 < n → (∀ k, k < n → (s.pinsAt k).rst = true) →
    ∃ t, run n s = .next t ∧ t.atReset ∧ t.cfg = s.cfg

/-- The reset state meets the invariant of 10_state.md R32 on every legal instance, and its registers fit their widths (R21)
on every instance; the reference instance is legal and holds the two words the source gives. That `P`, `H` and the other
words are free values there is the model's choice (log 4). -/
def Obligations.ResetMeetsInvariant : Prop :=
  (∀ c : Config, c.legal = true → (State.resetOf c).Inv) ∧ (∀ c : Config, (State.resetOf c).fits) ∧
  State.reset.Inv ∧ sourceWords State.reset.cfg

/-! ## The invariant of reachable states -/

/-- Every step keeps the seven items of 10_state.md R32 (the spec's inference), reset edges included. -/
def Obligations.EveryStepKeepsInvariant : Prop :=
  ∀ s t : State, s.Inv → step s = .next t → t.Inv

/-- 10_state.md R21 (decision D10): every step keeps `idx`, `tcnt` and `divcnt` within their widths, from every state of those
widths, one with an index not below `L` too; the invariant implies it; and the width of a register of `n` values is the
least `w >= 1` with `n <= 2^w`, which is `max(1, ceil(log2 n))` (00_scope.md R8). That the three are natural numbers is the
model's choice (log 10). -/
def Obligations.EveryStepKeepsRegisterWidths : Prop :=
  (∀ s t : State, s.fits → step s = .next t → t.fits) ∧ (∀ s : State, s.Inv → s.fits) ∧
  ∀ n w : Nat, 1 ≤ w → (counterWidth n ≤ w ↔ n ≤ 2 ^ w)

/-- 10_state.md R32 and R33 (the spec's inference): every run from the reset state of a legal instance goes on, meets the
invariant, and has `cs_n` low only while `dbg` is high. -/
def Obligations.EveryRunFromResetKeepsInvariant : Prop :=
  ∀ (s : State) (n : Nat), s.cfg.legal = true → s.atReset →
    ∃ t, run n s = .next t ∧ t.Inv ∧ (t.outputs.csN = false → t.outputs.dbg = true)

/-- 60_exceptions.md R186: no code, ROM word or index value traps. From every state of a legal instance with its index in
range, each of the four forms answers a next state, and so does the step, whatever the codes and the pins. -/
def Obligations.NoCodeWordOrIndexTraps : Prop :=
  ∀ s : State, s.cfg.legal = true → s.ctl.idx < s.cfg.L →
    (∀ i : Instr, ∃ t, exec i s = .next t) ∧ ∃ t, step s = .next t

/-- The model's one stop (log 7, the model's choice): a data form at SELECT whose ROM address holds no word. -/
def Obligations.DataFormStopsWhereRomHasNoWord : Prop :=
  ∀ (i : Instr) (t : Table) (s : State), i.table = some t → s.ctl.st = .select →
    romRead s.cfg t s.ctl.idx = none → exec i s = .fault .romNoWord

/-! ## Encodings -/

/-- Decoding the code of a well-formed form gives the form back, under every map that meets 30_encoding.md R73. -/
def Obligations.DecodeOfEncodeGivesFormBack : Prop :=
  ∀ (m : SelMap) (i : Instr), i.wf m = true → decode m (encode m i) = i

/-- 30_encoding.md R81 (the spec's inference): every code selects exactly one form, under every legal map. -/
def Obligations.EveryCodeSelectsExactlyOneForm : Prop :=
  ∀ (m : SelMap) (c : Code), m.legal = true →
    (decode m c).wf m = true ∧ encode m (decode m c) = c ∧
    ∀ i : Instr, i.wf m = true → encode m i = c → i = decode m c

/-- 30_encoding.md R73 and R82: three codes are defined, one for each table, 0b0000 among them and 0b0011 not; every undefined
code, and no defined one, selects SVC_NONE. -/
def Obligations.UndefinedCodesSelectTheSilentForm : Prop :=
  ∀ m : SelMap, m.legal = true →
    (∀ t : Table, ∃ c, m.table c = some t ∧ ∀ c', m.table c' = some t → c' = c) ∧
    m.table 0b0000#4 ≠ none ∧ m.table 0b0011#4 = none ∧
    (∀ c : Code, m.table c = none → decode m c = .svcNone c) ∧
    (∀ (c : Code) (t : Table), m.table c = some t → (decode m c).table = some t)

/-- opcode_table.json under the reference map (30_encoding.md R80, decision D6): each code hits exactly one row, and that
row's mnemonic is the decoded form's. -/
def Obligations.OpcodeRowsPartitionTheCodes : Prop :=
  ∀ c : Code, (opcodeRows.filter (fun r => r.hit c)).map OpcodeRow.mnemonic =
    [(decode SelMap.reference c).mnemonic]

/-- Words written out from 30_encoding.md R80 decode to the forms they stand for, under the reference map. -/
def Obligations.SampleWordsDecode : Prop :=
  decodeTableWord 8 0b0000 = some .svcT0 ∧ decodeTableWord 8 0b0001 = some .svcT1 ∧
  decodeTableWord 8 0b0010 = some .svcT2 ∧ decodeTableWord 8 0b0011 = some (.svcNone 0b0011#4) ∧
  decodeTableWord 8 0b0101 = some (.svcNone 0b0101#4) ∧ decodeTableWord 8 0b1010 = some (.svcNone 0b1010#4)

/-- 30_encoding.md R78 (decision D10): the 4-bit codes of the service states, each code standing for one state. -/
def Obligations.StateCodesRoundTrip : Prop :=
  (∀ p : Phase, phaseOfCode (phaseCode p) = p) ∧ (∀ b : BitVec 4, phaseCode (phaseOfCode b) = b) ∧
  [Phase.idle, .assertCs, .select, .txhLoad, .txhWait, .txlLoad, .txlWait, .advance, .deassertCs, .exit].map phaseCode =
    [0, 1, 2, 3, 4, 5, 6, 7, 8, 9] ∧
  ∀ b : BitVec 4, (phaseOfCode b).isIllegal = decide (10 ≤ b.toNat)

/-- 20_memory.md R61 and 30_encoding.md R75 (decision D32): at `L = 32` the flat address is the table in bits 6:5 and the
index in bits 4:0, below 96; and for every `L` two (table, index) pairs in range never share an address. -/
def Obligations.RomAddressIsTableAndIndex : Prop :=
  (∀ (t : Table) (i : Nat), i < 32 →
    romAddr 32 t i = (BitVec.ofNat 2 (tableNum t) ++ BitVec.ofNat 5 i : BitVec 7).toNat ∧ romAddr 32 t i < 96) ∧
  ∀ (L : Nat) (t u : Table) (i j : Nat), i < L → j < L → romAddr L t i = romAddr L u j → t = u ∧ i = j

/-- 30_encoding.md R76 and 20_memory.md R55, R56 (bit order: decision D12): the split loses no bit, and the 16 bits go out as
`w[15]` to `w[0]`, which grouped by 8 are the high byte and then the low byte. -/
def Obligations.WordGoesOutHighByteFirst : Prop :=
  ∀ w : Word, w.toNat = (hiByte w).toNat * 256 + (loByte w).toNat ∧
    (hiByte w).toNat = w.toNat / 256 ∧ (loByte w).toNat = w.toNat % 256 ∧
    wordBits w = (List.range 16).map (fun k => w.getLsbD (15 - k)) ∧
    frameBytes (wordBits w) = [hiByte w, loByte w]

/-! ## The ROM -/

/-- 40_waveform_rom.md R96 and 20_memory.md R62: a legal instance has a word for each of the three tables at every index below
`L`, and none at any other index. -/
def Obligations.RomHoldsOneWordPerTableAndIndex : Prop :=
  ∀ (c : Config) (t : Table) (i : Nat), c.legal = true →
    (i < c.L → ∃ w, romRead c t i = some w) ∧ (c.L ≤ i → romRead c t i = none)

/-- 20_memory.md R54: the ROM is never written, by any step of any run, reset edges included; and so with the parameters. -/
def Obligations.RomIsNeverWritten : Prop :=
  ∀ (n : Nat) (s u : State), run n s = .next u →
    u.cfg = s.cfg ∧ ∀ (t : Table) (i : Nat), romRead u.cfg t i = romRead s.cfg t i

/-! ## The step -/

/-- A step that is no reset edge is the edge under the form the code in `sync2` decodes to, and a state given a table word
runs exactly that word next. That the decoder shows a form at every edge is the model's reading (log 5); how a word is
placed is log 6. -/
def Obligations.StepRunsTheDecodedForm : Prop :=
  (∀ s : State, s.pins.rst = false → step s = exec (decode s.cfg.selMap s.sync2) s) ∧
  ∀ (s : State) (w : Nat), w < 16 →
    step (s.withFetchWord 8 w) = exec (decode s.cfg.selMap (BitVec.ofNat 4 w)) (s.withFetchWord 8 w)

/-- 42_scheduler.md R129: SELECT fetches and goes to TXH_LOAD for a defined code and goes to ADVANCE for any other; SELECT is
the only state in which the form matters; and the code it reads was sampled two edges before. -/
def Obligations.SelectReadsTheCode : Prop :=
  (∀ s : State, s.cfg.legal = true → s.ctl.idx < s.cfg.L → s.ctl.st = .select → s.pins.rst = false →
    ∃ u, step s = .next u ∧
      match s.cfg.selMap.table s.sync2 with
      | some t => ∃ w, romRead s.cfg t s.ctl.idx = some w ∧ u.ctl = { s.ctl with wordQ := w, st := .txhLoad }
      | none => u.ctl = { s.ctl with st := .advance }) ∧
  (∀ (s : State) (i j : Instr), s.ctl.st ≠ .select → exec i s = exec j s) ∧
  ∀ s u : State, s.noReset 2 → run 2 s = .next u → u.sync2 = s.captured

/-- 42_scheduler.md R125 (decision D10): the complete next-state table. -/
def Obligations.NextStateTable : Prop :=
  ∀ (i : Instr) (s u : State), exec i s = .next u →
    u.ctl.st =
      match s.ctl.st with
      | .idle => if s.tmr.tickPend && s.pins.tickIe && s.pins.gie then .assertCs else .idle
      | .assertCs => .select
      | .select => if i.table = none then .advance else .txhLoad
      | .txhLoad => .txhWait
      | .txhWait => if s.ser.busy then .txhWait else .txlLoad
      | .txlLoad => .txlWait
      | .txlWait => if s.ser.busy then .txlWait else .advance
      | .advance => .deassertCs
      | .deassertCs => .exit
      | .exit => .idle
      | .illegal _ => .idle

/-- 42_scheduler.md R126: the only writes of `dbg_q` and `cs_n_q` besides reset. -/
def Obligations.OnlyWritesOfStrobeAndChipSelect : Prop :=
  ∀ s u : State, s.pins.rst = false → step s = .next u →
    u.ctl.dbgQ =
      (match s.ctl.st with
      | .idle => if s.tmr.tickPend && s.pins.tickIe && s.pins.gie then true else s.ctl.dbgQ
      | .exit => false
      | .illegal _ => false
      | _ => s.ctl.dbgQ) ∧
    u.ctl.csNQ =
      match s.ctl.st with
      | .assertCs => false
      | .deassertCs => true
      | .illegal _ => true
      | _ => s.ctl.csNQ

/-- 41_playback_index.md R116: only the ADVANCE step and reset write `idx`. -/
def Obligations.OnlyAdvanceAndResetWriteIndex : Prop :=
  ∀ s u : State, step s = .next u →
    (s.pins.rst = false → s.ctl.st ≠ .advance → u.ctl.idx = s.ctl.idx) ∧ (s.pins.rst = true → u.ctl.idx = 0)

/-- 10_state.md R28: each flag is set and cleared by what its row names, and by nothing else. Stated for the legal service
states; at an illegal one R168 forces the engine idle (IllegalStateRecovers). -/
def Obligations.FlagsAreWrittenAsListed : Prop :=
  ∀ s u : State, s.pins.rst = false → s.ctl.st.isIllegal = false → step s = .next u →
    (s.tmr.tickPend = false → u.tmr.tickPend = s.expire) ∧
    (s.tmr.tickPend = true → (u.tmr.tickPend = false ↔ s.go = true ∧ s.expire = false)) ∧
    (s.tmr.overrunQ = false → (u.tmr.overrunQ = true ↔ s.expire = true ∧ (s.tmr.tickPend = true ∨ s.ctl.st ≠ .idle))) ∧
    (s.tmr.overrunQ = true → u.tmr.overrunQ = true) ∧
    (s.ser.busy = false → (u.ser.busy = true ↔ s.ctl.st = .txhLoad ∨ s.ctl.st = .txlLoad)) ∧
    (s.ser.busy = true → (u.ser.busy = false ↔ s.ctl.st ≠ .txhLoad ∧ s.ctl.st ≠ .txlLoad ∧
      s.ser.divcnt = 0 ∧ s.ser.sclkQ = true ∧ s.ser.bitcnt = 7#3))

/-! ## The states of a service, one edge each -/

/-- 42_scheduler.md R127 and 60_exceptions.md R194 (decisions D4, D30): taking the tick interrupt. From IDLE with a tick pending
and both enables, every form enters the service: `st` and `dbg_q` change, the pending flag is consumed unless an expiry
falls on the same edge, and every other register is as its own rule says. -/
def Obligations.PendingEnabledTickEntersService : Prop :=
  ∀ (i : Instr) (s : State), s.ctl.st = .idle → s.ser.busy = false →
    s.tmr.tickPend = true → s.pins.tickIe = true → s.pins.gie = true →
    ∃ u, exec i s = .next u ∧ u.ctl = { s.ctl with st := .assertCs, dbgQ := true } ∧ u.ser = s.ser ∧
      u.tmr.tickPend = s.expire ∧ s.ticksTo u

/-- 42_scheduler.md R127 (decision D30): without the start condition IDLE writes nothing, and a pending tick stays pending. -/
def Obligations.IdleHoldsWithoutStartCondition : Prop :=
  ∀ (i : Instr) (s : State), s.ctl.st = .idle → s.ser.busy = false →
    (s.tmr.tickPend = false ∨ s.pins.tickIe = false ∨ s.pins.gie = false) →
    ∃ u, exec i s = .next u ∧ u.ctl = s.ctl ∧ u.ser = s.ser ∧
      (s.tmr.tickPend = true → u.tmr.tickPend = true) ∧ s.ticksTo u

/-- 42_scheduler.md R128: ASSERT_CS opens the frame, under every form, an undefined code's too. -/
def Obligations.AssertCsOpensFrame : Prop :=
  ∀ (i : Instr) (s : State), s.ctl.st = .assertCs → s.ser.busy = false →
    ∃ u, exec i s = .next u ∧ u.ctl = { s.ctl with csNQ := false, st := .select } ∧ u.ser = s.ser ∧ s.ticksTo u

/-- 40_waveform_rom.md R102: FETCH under SVC_T0, SVC_T1 and SVC_T2. At SELECT the word of the form's table at the index is
latched whole, no flag is written, nothing traps, and the index stays; at no other edge does `word_q` change. -/
def Obligations.DataFormsFetchAtSelect : Prop :=
  (∀ (i : Instr) (t : Table) (s : State), i.table = some t → s.cfg.legal = true → s.ctl.idx < s.cfg.L →
    s.ctl.st = .select → s.ser.busy = false →
    ∃ w u, romRead s.cfg t s.ctl.idx = some w ∧ exec i s = .next u ∧
      u.ctl = { s.ctl with wordQ := w, st := .txhLoad } ∧ u.ser = s.ser ∧ s.ticksTo u) ∧
  ∀ (i : Instr) (s u : State), s.ctl.st ≠ .select → exec i s = .next u → u.ctl.wordQ = s.ctl.wordQ

/-- 42_scheduler.md R129 and 40_waveform_rom.md R103 (the spec's inference): SVC_NONE at SELECT fetches nothing, keeps `word_q`
and goes to ADVANCE, whatever the code it holds. -/
def Obligations.SilentFormSkipsTheFetch : Prop :=
  ∀ (c : Code) (s : State), s.ctl.st = .select → s.ser.busy = false →
    ∃ u, exec (.svcNone c) s = .next u ∧ u.ctl = { s.ctl with st := .advance } ∧ u.ser = s.ser ∧ s.ticksTo u

/-- 42_scheduler.md R130, with the start of a byte as 43_serial_tx.md R165 gives it: TXH_LOAD starts the transfer of
`word_q[15:8]`. In a reachable state the engine is idle there (10_state.md R32). -/
def Obligations.TxhLoadStartsHighByte : Prop :=
  ∀ (i : Instr) (s : State), s.ctl.st = .txhLoad →
    (∃ u, exec i s = .next u ∧ u.ctl = { s.ctl with st := .txhWait } ∧
      u.ser = { sh := hiByte s.ctl.wordQ, mosiQ := (hiByte s.ctl.wordQ).getLsbD 7, sclkQ := false, bitcnt := 0#3,
                divcnt := s.cfg.H - 1, busy := true } ∧ s.ticksTo u) ∧
    (s.Inv → s.ser.busy = false)

/-- 42_scheduler.md R132 (decision D16) with 43_serial_tx.md R165: TXL_LOAD starts the transfer of `word_q[7:0]`, chip-select
held. -/
def Obligations.TxlLoadStartsLowByte : Prop :=
  ∀ (i : Instr) (s : State), s.ctl.st = .txlLoad →
    ∃ u, exec i s = .next u ∧ u.ctl = { s.ctl with st := .txlWait } ∧
      u.ser = { sh := loByte s.ctl.wordQ, mosiQ := (loByte s.ctl.wordQ).getLsbD 7, sclkQ := false, bitcnt := 0#3,
                divcnt := s.cfg.H - 1, busy := true } ∧ s.ticksTo u

/-- 42_scheduler.md R131 and R133 (the spec's inference of their length): the WAIT states hold while `busy` and move on when it
is 0. -/
def Obligations.WaitStatesWaitForTheEngine : Prop :=
  ∀ (i : Instr) (s : State), (s.ctl.st = .txhWait ∨ s.ctl.st = .txlWait) →
    ∃ u, exec i s = .next u ∧ s.ticksTo u ∧
      (s.ser.busy = true → u.ctl = s.ctl) ∧
      (s.ser.busy = false → u.ser = s.ser ∧
        u.ctl = { s.ctl with st := if s.ctl.st = .txhWait then .txlLoad else .advance })

/-- 42_scheduler.md R134: ADVANCE moves the index on by one modulo `L`, wrapping from `L - 1` to 0, and writes no flag; both
the data path and the silent path reach it. -/
def Obligations.AdvanceMovesIndexModuloL : Prop :=
  (∀ (i : Instr) (s : State), s.ctl.st = .advance → s.ser.busy = false → s.ctl.idx < s.cfg.L →
    ∃ u, exec i s = .next u ∧
      u.ctl = { s.ctl with idx := if s.ctl.idx = s.cfg.L - 1 then 0 else s.ctl.idx + 1, st := .deassertCs } ∧
      u.ctl.idx = (s.ctl.idx + 1) % s.cfg.L ∧ u.ser = s.ser ∧ s.ticksTo u) ∧
  (∀ (i : Instr) (s : State), s.ctl.st = .txlWait → s.ser.busy = false →
    ∃ u, exec i s = .next u ∧ u.ctl.st = .advance) ∧
  ∀ (c : Code) (s : State), s.ctl.st = .select → ∃ u, exec (.svcNone c) s = .next u ∧ u.ctl.st = .advance

/-- 42_scheduler.md R135: DEASSERT_CS closes the frame. -/
def Obligations.DeassertCsClosesFrame : Prop :=
  ∀ (i : Instr) (s : State), s.ctl.st = .deassertCs → s.ser.busy = false →
    ∃ u, exec i s = .next u ∧ u.ctl = { s.ctl with csNQ := true, st := .exit } ∧ u.ser = s.ser ∧ s.ticksTo u

/-- 42_scheduler.md R136: EXIT ends the service, and the next edge may start another if a tick is pending and enabled. -/
def Obligations.ExitEndsService : Prop :=
  ∀ (i : Instr) (s : State), s.ctl.st = .exit → s.ser.busy = false →
    ∃ u, exec i s = .next u ∧ u.ctl = { s.ctl with dbgQ := false, st := .idle } ∧ u.ser = s.ser ∧ s.ticksTo u ∧
      ∀ j : Instr, u.tmr.tickPend = true → u.pins.tickIe = true → u.pins.gie = true →
        ∃ v, exec j u = .next v ∧ v.ctl.st = .assertCs

/-- 42_scheduler.md R137 and 43_serial_tx.md R168 (decision D17): an illegal state code recovers to IDLE, strobe low,
chip-select de-asserted, engine forced idle with `mosi_q` held, index kept. That the model has these states is log 9. -/
def Obligations.IllegalStateRecovers : Prop :=
  ∀ (i : Instr) (s : State) (k : Fin 6), s.ctl.st = .illegal k →
    ∃ u, exec i s = .next u ∧ u.ctl = { s.ctl with st := .idle, dbgQ := false, csNQ := true } ∧
      u.ser = { s.ser with busy := false, sclkQ := false, bitcnt := 0#3, divcnt := 0, sh := 0x00#8 } ∧ s.ticksTo u

/-! ## The serial engine -/

/-- 43_serial_tx.md R164: with no byte in flight and no start command, every engine register keeps its value, `mosi_q` its
last bit; `sclk_q` is 0 there in a reachable state (10_state.md R32). -/
def Obligations.IdleEngineHolds : Prop :=
  ∀ s u : State, s.pins.rst = false → s.ctl.st.isIllegal = false → s.ser.busy = false →
    s.ctl.st ≠ .txhLoad → s.ctl.st ≠ .txlLoad → step s = .next u →
    u.ser = s.ser ∧ (s.Inv → s.ser.sclkQ = false)

/-- 43_serial_tx.md R166 (decision D13): while the divider is above 0 it counts down and nothing else of the engine changes. -/
def Obligations.DividerCountsDown : Prop :=
  ∀ s u : State, s.pins.rst = false → s.ctl.st.isIllegal = false → s.ser.busy = true →
    s.ctl.st ≠ .txhLoad → s.ctl.st ≠ .txlLoad → 0 < s.ser.divcnt → step s = .next u →
    u.ser = { s.ser with divcnt := s.ser.divcnt - 1 }

/-- 43_serial_tx.md R167: the clock toggle, rising, falling, and falling on the last bit. -/
def Obligations.SerialClockToggles : Prop :=
  ∀ s u : State, s.pins.rst = false → s.ctl.st.isIllegal = false → s.ser.busy = true →
    s.ctl.st ≠ .txhLoad → s.ctl.st ≠ .txlLoad → s.ser.divcnt = 0 → step s = .next u →
    (s.ser.sclkQ = false → u.ser = { s.ser with divcnt := s.cfg.H - 1, sclkQ := true }) ∧
    (s.ser.sclkQ = true → s.ser.bitcnt = 7#3 →
      u.ser = { s.ser with divcnt := s.cfg.H - 1, sclkQ := false, busy := false }) ∧
    (s.ser.sclkQ = true → s.ser.bitcnt ≠ 7#3 →
      u.ser = { s.ser with divcnt := s.cfg.H - 1, sclkQ := false, bitcnt := s.ser.bitcnt + 1#3,
                           sh := s.ser.sh <<< 1, mosiQ := s.ser.sh.getLsbD 6 })

/-- 43_serial_tx.md R169 and R171 (the spec's inference; decision D15): a byte started at an edge has `sclk` rise `(2j+1)H` and
fall `(2j+2)H` edges later, bit `d[7-j]` on `mosi` meanwhile, and `busy` falls exactly `16H` edges later: the engine cannot
stall, whatever the pins do short of reset. -/
def Obligations.ByteTakesSixteenHalfPeriods : Prop :=
  ∀ (s : State) (d : Byte), 1 ≤ s.cfg.H → s.noReset (16 * s.cfg.H + 1) →
    (s.ctl.st = .txhLoad ∧ d = hiByte s.ctl.wordQ ∨ s.ctl.st = .txlLoad ∧ d = loByte s.ctl.wordQ) →
    ∀ n, n ≤ 16 * s.cfg.H → ∃ u, run (n + 1) s = .next u ∧
      u.ser.busy = decide (n < 16 * s.cfg.H) ∧ u.ser.sclkQ = decide (n / s.cfg.H % 2 = 1) ∧
      u.ser.mosiQ = d.getLsbD (7 - min 7 (n / (2 * s.cfg.H)))

/-! ## The tick timer, its flags, and the synchronizer -/

/-- 60_exceptions.md R196 and R198 (decision D3): the down-counter, frozen while `timer_run` is 0. -/
def Obligations.TimerCountsDownAndReloads : Prop :=
  ∀ s u : State, s.pins.rst = false → step s = .next u →
    (s.pins.timerRun = false → u.tmr.tcnt = s.tmr.tcnt ∧ s.expire = false ∧
      (s.go = false → u.tmr.tickPend = s.tmr.tickPend)) ∧
    (s.pins.timerRun = true → s.tmr.tcnt = 0 → u.tmr.tcnt = s.cfg.P - 1 ∧ s.expire = true ∧ u.tmr.tickPend = true) ∧
    (s.pins.timerRun = true → s.tmr.tcnt ≠ 0 → u.tmr.tcnt = s.tmr.tcnt - 1 ∧ s.expire = false)

/-- 60_exceptions.md R196 (the spec's inference): with `timer_run` held, from a full count expiries fall at the edges
`P - 1`, `2P - 1`, `3P - 1` and so on, and at no other. -/
def Obligations.TimerExpiresEveryPEdges : Prop :=
  ∀ (s : State) (n : Nat), s.Inv → s.tmr.tcnt = s.cfg.P - 1 →
    (∀ k, k < n → (s.pinsAt k).rst = false ∧ (s.pinsAt k).timerRun = true) →
    ∀ k, k < n → ∃ u, run k s = .next u ∧ u.expire = decide ((k + 1) % s.cfg.P = 0)

/-- 60_exceptions.md R191 (decision D4): a masked tick is not lost. While either enable is 0 it stays pending and the machine
stays in IDLE as it is. -/
def Obligations.MaskedTickStaysPending : Prop :=
  ∀ (s : State) (n : Nat), s.Inv → s.ctl.st = .idle → s.tmr.tickPend = true → s.noReset n →
    (∀ k, k < n → (s.pinsAt k).tickIe = false ∨ (s.pinsAt k).gie = false) →
    ∃ u, run n s = .next u ∧ u.tmr.tickPend = true ∧ u.ctl = s.ctl ∧ u.ser = s.ser

/-- 60_exceptions.md R188 and R189 (decision D5): the overrun flag is sticky until reset and changes nothing else: two states
that differ in it alone step to states that differ in it alone. -/
def Obligations.OverrunIsStickyAndPassive : Prop :=
  (∀ (s u : State) (n : Nat), s.tmr.overrunQ = true → s.noReset n → run n s = .next u → u.faulted = true) ∧
  ∀ (s u : State) (b : Bool), s.pins.rst = false → step s = .next u →
    ∃ b', step { s with tmr := { s.tmr with overrunQ := b } } = .next { u with tmr := { u.tmr with overrunQ := b' } }

/-- 60_exceptions.md R193, item 3 (decision D29): an expiry at the start edge of a service leaves a tick pending and sets the
overrun flag, and the service starts. -/
def Obligations.ExpiryAtStartEdgeOverruns : Prop :=
  ∀ s : State, s.pins.rst = false → s.go = true → s.expire = true →
    ∃ u, step s = .next u ∧ u.ctl.st = .assertCs ∧ u.tmr.tickPend = true ∧ u.tmr.overrunQ = true

/-- 60_exceptions.md R193, item 4, and R195 (decision D29): an expiry at the EXIT edge is an overrun, and its service starts at
the next edge if the enables are 1 there. -/
def Obligations.ExpiryAtExitOverrunsAndIsServedNext : Prop :=
  ∀ s : State, s.noReset 2 → s.ctl.st = .exit → s.expire = true →
    (s.pinsAt 1).tickIe = true → (s.pinsAt 1).gie = true →
    ∃ u v, run 1 s = .next u ∧ u.ctl.st = .idle ∧ u.tmr.overrunQ = true ∧ u.tmr.tickPend = true ∧
      run 2 s = .next v ∧ v.ctl.st = .assertCs

/-- 42_scheduler.md R138 and R139 (decision D9): the synchronizer moves on at every edge, and each settled bit of `sel` is
captured as it stands; an unsettled bit is a free value (log 3), of which nothing is said. -/
def Obligations.SynchronizerCapturesSettledBits : Prop :=
  ∀ s u : State, s.pins.rst = false → step s = .next u →
    u.sync2 = s.sync1 ∧
    (∀ k, k < 4 → s.pins.unsettled.getLsbD k = false → u.sync1.getLsbD k = s.pins.sel.getLsbD k) ∧
    (s.pins.unsettled = 0b0000#4 → u.sync1 = s.pins.sel)

/-! ## Whole services -/

/-- 42_scheduler.md R140, and R141 and R142 with their own tables: the whole of SVC_T0, SVC_T1 and SVC_T2. From a start edge `g`,
under the form (`serve`, exec iterated under one form, is the model's reading of a service: log 5), every register the pseudocode names is at edge `g + k` as it says, for every `k`; the frame log of the
service is one closed frame, the word's 16 bits; and an expiry at any later edge of the service is an overrun. -/
def Obligations.DataServiceTimeline : Prop :=
  ∀ (i : Instr) (t : Table) (s : State), i.table = some t → s.Inv → s.go = true →
    ∃ w, romRead s.cfg t s.ctl.idx = some w ∧
      (∀ k, k ≤ 9 + 32 * s.cfg.H → ∃ v, serve i (k + 1) s = .next v ∧
        v.ctl.dbgQ = decide (k < 9 + 32 * s.cfg.H) ∧
        v.ctl.csNQ = decide (k < 1 ∨ 8 + 32 * s.cfg.H ≤ k) ∧
        v.ctl.wordQ = (if k < 2 then s.ctl.wordQ else w) ∧
        v.ser.busy = decide (3 ≤ k ∧ k < 3 + 16 * s.cfg.H ∨ 5 + 16 * s.cfg.H ≤ k ∧ k < 5 + 32 * s.cfg.H) ∧
        (k = 3 → v.ser.sh = hiByte w ∧ v.ser.mosiQ = w.getLsbD 15) ∧
        (k = 5 + 16 * s.cfg.H → v.ser.sh = loByte w ∧ v.ser.mosiQ = w.getLsbD 7) ∧
        v.ctl.idx = (if k < 7 + 32 * s.cfg.H then s.ctl.idx else (s.ctl.idx + 1) % s.cfg.L) ∧
        (v.ctl.st = .idle ↔ k = 9 + 32 * s.cfg.H) ∧
        (k = 0 → v.tmr.tickPend = s.expire) ∧
        (k < 9 + 32 * s.cfg.H → v.expire = true → ∃ v', exec i v = .next v' ∧ v'.tmr.overrunQ = true)) ∧
      frameLog (serveTrace i (10 + 32 * s.cfg.H) s) = ⟨[wordBits w], none⟩

/-- 42_scheduler.md R143: the whole of SVC_NONE. From a start edge `g` (`serve` is the model's reading of a service: log 5), the strobe and chip-select toggle, the index advances,
`word_q` and every engine register stay, and the frame log of the service is one closed frame of no bit. -/
def Obligations.SilentServiceTimeline : Prop :=
  ∀ (c : Code) (s : State), s.Inv → s.go = true →
    (∀ k, k ≤ 5 → ∃ v, serve (.svcNone c) (k + 1) s = .next v ∧
      v.ctl.dbgQ = decide (k < 5) ∧ v.ctl.csNQ = decide (k < 1 ∨ 4 ≤ k) ∧
      v.ctl.wordQ = s.ctl.wordQ ∧ v.ser = s.ser ∧ v.ser.busy = false ∧
      v.ctl.idx = (if k < 3 then s.ctl.idx else (s.ctl.idx + 1) % s.cfg.L) ∧
      (v.ctl.st = .idle ↔ k = 5) ∧ (k = 0 → v.tmr.tickPend = s.expire)) ∧
    frameLog (serveTrace (.svcNone c) 6 s) = ⟨[[]], none⟩

/-- 42_scheduler.md R139, R144, R149 and R150 (the spec's inference): a service of the running block, with free pins after its
start edge, is that of the code captured at its start edge: a defined code sends the word at the index in one frame and
takes `10 + 32H` edges, an undefined one sends an empty frame and takes 6; either advances the index by one. -/
def Obligations.ServiceRunsTheCodeOfItsStartEdge : Prop :=
  ∀ s : State, s.Inv → s.go = true →
    (∀ t, s.cfg.selMap.table s.captured = some t → s.noReset (10 + 32 * s.cfg.H) →
      ∃ w u, romRead s.cfg t s.ctl.idx = some w ∧ run (10 + 32 * s.cfg.H) s = .next u ∧ u.ctl.st = .idle ∧
        u.ctl.idx = (s.ctl.idx + 1) % s.cfg.L ∧
        frameLog (trace (10 + 32 * s.cfg.H) s) = ⟨[wordBits w], none⟩) ∧
    (s.cfg.selMap.table s.captured = none → s.noReset 6 →
      ∃ u, run 6 s = .next u ∧ u.ctl.st = .idle ∧ u.ctl.idx = (s.ctl.idx + 1) % s.cfg.L ∧
        frameLog (trace 6 s) = ⟨[[]], none⟩)

/-- The source's scenarios (95_test_vectors.md W1 and W2; 40_waveform_rom.md R98; at `L = 1` the second is empty, log 18): on an
instance with the source's two words, a
service that captures 0b0000 sends 0x17, 0xFF at index 0 and 0x19, 0x72 at index 1. -/
def Obligations.SourceScenarioBytes : Prop :=
  ∀ s : State, s.Inv → sourceWords s.cfg → s.go = true → s.captured = 0b0000#4 → s.noReset (10 + 32 * s.cfg.H) →
    (s.ctl.idx = 0 → (frameLog (trace (10 + 32 * s.cfg.H) s)).closed.map frameBytes = [[0x17#8, 0xFF#8]]) ∧
    (s.ctl.idx = 1 → (frameLog (trace (10 + 32 * s.cfg.H) s)).closed.map frameBytes = [[0x19#8, 0x72#8]])

/-- 41_playback_index.md R114: every service performs ADVANCE exactly once, whichever form its code selects. From a start
edge, the run that reaches IDLE again has one EXIT edge and one ADVANCE edge, and ADVANCE follows TXL_WAIT for a defined code
and SELECT for an undefined one. -/
def Obligations.EveryServiceAdvancesOnce : Prop :=
  ∀ s : State, s.Inv → s.go = true → s.noReset (10 + 32 * s.cfg.H) →
    ∃ n v u, n + 3 ≤ 10 + 32 * s.cfg.H ∧ run (n + 3) s = .next u ∧ u.ctl.st = .idle ∧
      countEdges (fun v => decide (v.ctl.st = .exit)) (trace (n + 3) s) = 1 ∧
      countEdges (fun v => decide (v.ctl.st = .advance)) (trace (n + 3) s) = 1 ∧
      0 < n ∧ run (n - 1) s = .next v ∧
      v.ctl.st = (if s.cfg.selMap.table s.captured = none then .select else .txlWait)

/-- 42_scheduler.md R146 (the spec's inference): a service starts from IDLE alone, and IDLE is entered from EXIT alone, reset
and the recovery of R137 aside. -/
def Obligations.ServicesDoNotNest : Prop :=
  ∀ s u : State, s.pins.rst = false → s.ctl.st.isIllegal = false → step s = .next u →
    (u.ctl.st = .assertCs → s.ctl.st = .idle ∧ s.tmr.tickPend = true ∧ s.pins.tickIe = true ∧ s.pins.gie = true) ∧
    (u.ctl.st = .idle → s.ctl.st = .exit ∨ s.ctl.st = .idle ∧ s.go = false)

/-- 42_scheduler.md R147 (decision D18): once started, a service runs on whatever `tick_ie`, `gie`, `timer_run` and `sel` do. Two
machines alike in the scheduler's and the engine's registers, and in the code the service has yet to read, whose pins
differ in everything but reset, keep those registers alike as long as the service lasts. -/
def Obligations.RunningServiceIgnoresPins : Prop :=
  ∀ (s s' u : State) (n : Nat), s'.cfg = s.cfg → s'.ctl = s.ctl → s'.ser = s.ser →
    (s.ctl.st = .assertCs → s'.sync1 = s.sync1) → (s.ctl.st = .select → s'.sync2 = s.sync2) →
    s.noReset n → s'.noReset n →
    (∀ k v, k < n → run k s = .next v → v.ctl.st ≠ .idle) → run n s = .next u →
    ∃ u', run n s' = .next u' ∧ u'.ctl = u.ctl ∧ u'.ser = u.ser

/-! ## Laws of whole runs -/

/-- 43_serial_tx.md R177 (the spec's inference): in a run from reset without a later reset, the n-th closed frame of the log is
that of the n-th service, the frame of its code at index `n mod L`; every service whose frame is not open has its frame in
the log; and every closed frame has 16 bits or none. -/
def Obligations.FrameLogIsTheServicesInOrder : Prop :=
  ∀ (s : State) (n : Nat), s.cfg.legal = true → s.atReset → s.noReset n →
    ∃ u, run n s = .next u ∧
      (frameLog (trace n s)).closed =
        ((selectedCodes (trace n s)).take (frameLog (trace n s)).closed.length).zipIdx.map
          (fun p => serviceFrame s.cfg p.1 (p.2 % s.cfg.L)) ∧
      (u.ctl.csNQ = true → (frameLog (trace n s)).closed.length = (selectedCodes (trace n s)).length) ∧
      ∀ f ∈ (frameLog (trace n s)).closed, f.length = 16 ∨ f.length = 0

/-- 41_playback_index.md R117, first half (the spec's inference): after `n` completed services since reset, `idx = n mod L`,
whatever codes they sampled. -/
def Obligations.IndexCountsCompletedServices : Prop :=
  ∀ (s u : State) (n : Nat), s.cfg.legal = true → s.atReset → s.noReset n → run n s = .next u →
    u.ctl.st = .idle → u.ctl.idx = completedServices (trace n s) % s.cfg.L

/-- 41_playback_index.md R117, second half (the spec's inference): while no overrun has occurred, expiries exceed completed
services by one exactly when a tick is pending or a service runs, and by none otherwise; so in a quiet IDLE state the index
is the number of expiries modulo `L`. -/
def Obligations.IndexCountsExpiriesWithoutOverrun : Prop :=
  ∀ (s u : State) (n : Nat), s.cfg.legal = true → s.atReset → s.noReset n → run n s = .next u →
    u.faulted = false →
    expiries (trace n s) = completedServices (trace n s) +
      (if u.tmr.tickPend = true ∨ u.ctl.st ≠ .idle then 1 else 0) ∧
    (u.ctl.st = .idle → u.tmr.tickPend = false → u.ctl.idx = expiries (trace n s) % s.cfg.L)

/-- 70_reset_and_hazards.md R224 (decision D28): on a conformant instance, `P >= 11 + 32H`, a run from reset with the enables at
1 never overruns, whatever `timer_run` and the codes do. -/
def Obligations.ConformantInstanceNeverOverruns : Prop :=
  ∀ (s : State) (n : Nat), s.cfg.legal = true → conformant s.cfg → s.atReset → s.noReset n →
    (∀ k, k < n → (s.pinsAt k).tickIe = true ∧ (s.pinsAt k).gie = true) →
    ∃ u, run n s = .next u ∧ u.faulted = false

/-- 70_reset_and_hazards.md R224 (the spec's inference): the bound is tight. At `P = 10 + 32H` a data service that starts one
edge after its expiry meets the next expiry on its EXIT edge, which is an overrun. -/
def Obligations.EnvelopeBoundIsTight : Prop :=
  ∀ (s : State) (t : Table), s.Inv → s.cfg.P = 10 + 32 * s.cfg.H → s.go = true → s.tmr.tcnt = s.cfg.P - 1 →
    s.cfg.selMap.table s.captured = some t →
    (∀ k, k < 10 + 32 * s.cfg.H → (s.pinsAt k).rst = false ∧ (s.pinsAt k).timerRun = true) →
    ∃ v u, run (9 + 32 * s.cfg.H) s = .next v ∧ v.ctl.st = .exit ∧ v.expire = true ∧
      run (10 + 32 * s.cfg.H) s = .next u ∧ u.faulted = true ∧ u.ctl.st = .idle
end

