-- ==== Sys2Proof/Laws/Decode.lean ====
section
/-! SUPPORT. The selection map and the decoder, each function's small lemmas. -/

namespace Sys2Proof

/-- The parts of a legal map (30_encoding.md R73). -/
theorem SelMap.legal_parts {m : SelMap} (h : m.legal = true) :
    m.code0 ≠ m.code1 ∧ m.code0 ≠ m.code2 ∧ m.code1 ≠ m.code2 ∧
    (m.code0 = 0b0000#4 ∨ m.code1 = 0b0000#4 ∨ m.code2 = 0b0000#4) ∧
    m.code0 ≠ 0b0011#4 ∧ m.code1 ≠ 0b0011#4 ∧ m.code2 ≠ 0b0011#4 := by
  simpa [SelMap.legal, and_assoc, or_assoc] using h

/-- The code of a table. -/
def SelMap.codeOf (m : SelMap) : Table → Code
  | .t0 => m.code0
  | .t1 => m.code1
  | .t2 => m.code2

/-- Under a legal map a code selects a table exactly when it is the table's code. -/
theorem SelMap.table_eq_some {m : SelMap} (h : m.legal = true) {c : Code} {t : Table} :
    m.table c = some t ↔ c = m.codeOf t := by
  obtain ⟨h01, h02, h12, _⟩ := SelMap.legal_parts h
  constructor
  · unfold SelMap.table
    cases t <;> simp only [SelMap.codeOf] <;> split_ifs <;> simp_all
  · rintro rfl
    cases t <;> simp [SelMap.table, SelMap.codeOf, h01.symm, h02.symm, h12.symm]

theorem SelMap.table_eq_none {m : SelMap} {c : Code} :
    m.table c = none ↔ c ≠ m.code0 ∧ c ≠ m.code1 ∧ c ≠ m.code2 := by
  unfold SelMap.table
  split_ifs <;> simp_all

/-- The form that sends from a table. -/
def formOfTable : Table → Instr
  | .t0 => .svcT0
  | .t1 => .svcT1
  | .t2 => .svcT2

/-- What the decoder answers: the form of the code's table, or the silent form holding the code. -/
theorem decode_of_table {m : SelMap} {c : Code} {t : Table} (h : m.table c = some t) :
    decode m c = formOfTable t := by
  unfold decode
  rw [h]
  cases t <;> rfl

theorem decode_of_none {m : SelMap} {c : Code} (h : m.table c = none) : decode m c = .svcNone c := by
  unfold decode
  rw [h]

theorem SelMap.reference_legal : SelMap.reference.legal = true := by decide

end Sys2Proof
end

