-- ==== Sys2Proof/Laws/State.lean ====
section
/-! SUPPORT. One lemma per field of State for each operation that makes a new State, all true by rfl. -/

namespace Sys2Proof.Machine

variable (s : State) (m : Option Word) (c : Code)

@[simp] theorem edge_cfg : (s.edge m).cfg = s.cfg := rfl
@[simp] theorem edge_ctl : (s.edge m).ctl = s.ctl.next s.cfg.L s.go s.ser.busy m := rfl
@[simp] theorem edge_tmr : (s.edge m).tmr = s.timerNext := rfl
@[simp] theorem edge_ser : (s.edge m).ser = s.ser.next s.cfg.H s.ctl := rfl
@[simp] theorem edge_sync1 : (s.edge m).sync1 = s.captured := rfl
@[simp] theorem edge_sync2 : (s.edge m).sync2 = s.sync1 := rfl
@[simp] theorem edge_env : (s.edge m).env = s.env.tail := rfl
@[simp] theorem edge_draws : (s.edge m).draws = s.draws + 1 := rfl

@[simp] theorem timerNext_tcnt : s.timerNext.tcnt = tcntNext s.cfg.P s.pins.timerRun s.tmr.tcnt := rfl
@[simp] theorem timerNext_tickPend : s.timerNext.tickPend = s.tickPendNext := rfl
@[simp] theorem timerNext_overrunQ : s.timerNext.overrunQ = s.overrunNext := rfl

@[simp] theorem resetEdge_cfg : s.resetEdge.cfg = s.cfg := rfl
@[simp] theorem resetEdge_ctl : s.resetEdge.ctl = Scheduler.reset := rfl
@[simp] theorem resetEdge_tmr : s.resetEdge.tmr = Timer.reset s.cfg.P := rfl
@[simp] theorem resetEdge_ser : s.resetEdge.ser = Serial.reset := rfl
@[simp] theorem resetEdge_sync1 : s.resetEdge.sync1 = 0b0000#4 := rfl
@[simp] theorem resetEdge_sync2 : s.resetEdge.sync2 = 0b0000#4 := rfl
@[simp] theorem resetEdge_env : s.resetEdge.env = s.env.tail := rfl
@[simp] theorem resetEdge_draws : s.resetEdge.draws = s.draws + 1 := rfl

@[simp] theorem placeCode_cfg : (s.placeCode c).cfg = s.cfg := rfl
@[simp] theorem placeCode_st : (s.placeCode c).ctl.st = .select := rfl
@[simp] theorem placeCode_idx : (s.placeCode c).ctl.idx = s.ctl.idx := rfl
@[simp] theorem placeCode_wordQ : (s.placeCode c).ctl.wordQ = s.ctl.wordQ := rfl
@[simp] theorem placeCode_tmr : (s.placeCode c).tmr = s.tmr := rfl
@[simp] theorem placeCode_ser : (s.placeCode c).ser = s.ser := rfl
@[simp] theorem placeCode_sync1 : (s.placeCode c).sync1 = s.sync1 := rfl
@[simp] theorem placeCode_sync2 : (s.placeCode c).sync2 = c := rfl
@[simp] theorem placeCode_draws : (s.placeCode c).draws = s.draws := rfl

@[simp] theorem outputs_dbg : s.outputs.dbg = s.ctl.dbgQ := rfl
@[simp] theorem outputs_csN : s.outputs.csN = s.ctl.csNQ := rfl
@[simp] theorem outputs_sclk : s.outputs.sclk = s.ser.sclkQ := rfl
@[simp] theorem outputs_mosi : s.outputs.mosi = s.ser.mosiQ := rfl
@[simp] theorem outputs_overrun : s.outputs.overrun = s.tmr.overrunQ := rfl

/-- The edge after which the pin levels are those of one edge later. -/
@[simp] theorem edge_pinsAt (k : Nat) : (s.edge m).pinsAt k = s.pinsAt (k + 1) := by
  simp [State.pinsAt, Nat.add_right_comm, ← Nat.add_assoc]

@[simp] theorem resetEdge_pinsAt (k : Nat) : s.resetEdge.pinsAt k = s.pinsAt (k + 1) := by
  simp [State.pinsAt, Nat.add_right_comm, ← Nat.add_assoc]

/-- Placing a code makes the next edge no reset edge. -/
@[simp] theorem placeCode_rst : (s.placeCode c).pins.rst = false := by
  unfold State.pins State.pinsAt State.placeCode
  cases s.env <;> rfl

end Sys2Proof.Machine
end

