-- ==== Sys2Proof/Laws/Ops.lean ====
section
/-! SUPPORT. What each shared operation can do, said once: the ROM read, the index advance, the state machine's cases,
and exec and step by inversion. -/

namespace Sys2Proof.Machine

/-! ## ROM -/

theorem romLookup_some_of_mem {rom : List RomCell} {a : Nat} (h : a ∈ rom.map Prod.fst) :
    ∃ w, romLookup rom a = some w := by
  induction rom with
  | nil => simp at h
  | cons c rest ih =>
    obtain ⟨b, w⟩ := c
    by_cases hb : b = a
    · exact ⟨w, by simp [romLookup, hb]⟩
    · obtain ⟨v, hv⟩ := ih (by simpa [Ne.symm hb] using h)
      exact ⟨v, by simp [romLookup, hb, hv]⟩

theorem romLookup_none_of_not_mem {rom : List RomCell} {a : Nat} (h : a ∉ rom.map Prod.fst) :
    romLookup rom a = none := by
  induction rom with
  | nil => rfl
  | cons c rest ih =>
    obtain ⟨b, w⟩ := c
    simp only [List.map_cons, List.mem_cons, not_or] at h
    simp [romLookup, Ne.symm h.1, ih h.2]

theorem romAddr_lt {L : Nat} (t : Table) {i : Nat} (h : i < L) : romAddr L t i < 3 * L := by
  cases t <;> simp only [romAddr, tableNum] <;> omega

/-- The parts of a legal instance. -/
theorem legal_parts {c : Config} (h : c.legal = true) :
    1 ≤ c.L ∧ 1 ≤ c.P ∧ 1 ≤ c.H ∧ 1 ≤ c.fTick ∧ c.selMap.legal = true ∧ romWf c.L c.rom = true := by
  simpa [Config.legal, and_assoc] using h

/-- A legal instance has a word at every table and every index below L (20_memory.md R58). -/
theorem romRead_some {c : Config} (h : c.legal = true) (t : Table) {i : Nat} (hi : i < c.L) :
    ∃ w, romRead c t i = some w := by
  have hr := (legal_parts h).2.2.2.2.2
  simp only [romWf, beq_iff_eq] at hr
  simp only [romRead, if_pos hi]
  exact romLookup_some_of_mem (by rw [hr]; exact List.mem_range.2 (romAddr_lt t hi))

/-! ## Index -/

theorem le_two_pow_ceilLog2 (n : Nat) : n ≤ 2 ^ ceilLog2 n := by
  unfold ceilLog2
  split
  · simp; omega
  · have := Nat.lt_log2_self (n := n - 1)
    omega

theorem le_two_pow_counterWidth (n : Nat) : n ≤ 2 ^ counterWidth n :=
  (le_two_pow_ceilLog2 n).trans (Nat.pow_le_pow_right (by omega) (Nat.le_max_right _ _))

/-- The width of a counter is the least one, from 1 on, that holds its `n` values. -/
theorem counterWidth_le_iff (n : Nat) {w : Nat} (hw : 1 ≤ w) : counterWidth n ≤ w ↔ n ≤ 2 ^ w := by
  unfold counterWidth ceilLog2
  split
  · have := Nat.one_le_two_pow (n := w)
    omega
  · have h := Nat.log2_lt (n := n - 1) (k := w) (by omega)
    omega

/-- The top value of a counter fits its width. -/
theorem pred_lt_two_pow_counterWidth (n : Nat) : n - 1 < 2 ^ counterWidth n := by
  have := le_two_pow_counterWidth n
  have := Nat.one_le_two_pow (n := counterWidth n)
  omega

/-- The advance fits the index's width, whatever the index held. -/
theorem advanceIdx_lt (L i : Nat) : advanceIdx L i < 2 ^ counterWidth L := by
  unfold advanceIdx toWidth
  split
  · exact Nat.two_pow_pos _
  · exact Nat.mod_lt _ (Nat.two_pow_pos _)

/-- The timer's next count fits the timer's width if its count did. -/
theorem tcntNext_lt {P n : Nat} (run : Bool) (h : n < 2 ^ counterWidth P) : tcntNext P run n < 2 ^ counterWidth P := by
  have := pred_lt_two_pow_counterWidth P
  unfold tcntNext
  split_ifs <;> omega

/-- In its range, the advance is `(idx + 1) mod L` (41_playback_index.md R113). -/
theorem advanceIdx_eq_mod {L i : Nat} (h : i < L) : advanceIdx L i = (i + 1) % L := by
  unfold advanceIdx toWidth
  split
  · rename_i he
    rw [show i + 1 = L by omega, Nat.mod_self]
  · have := le_two_pow_counterWidth L
    rw [Nat.mod_eq_of_lt (by omega : i + 1 < 2 ^ counterWidth L), Nat.mod_eq_of_lt (by omega)]

/-! ## exec -/

/-- The word a form's table shows at the index (40_waveform_rom.md R101). -/
def formMux (i : Instr) (s : State) : Option Word :=
  match i.table with
  | some t => romRead s.cfg t s.ctl.idx
  | none => none

/-- Outside SELECT the multiplexer is not read. -/
theorem edge_mux_irrelevant {s : State} (h : s.ctl.st ≠ .select) (m m' : Option Word) :
    s.edge m = s.edge m' := by
  have : s.ctl.next s.cfg.L s.go s.ser.busy m = s.ctl.next s.cfg.L s.go s.ser.busy m' := by
    unfold Scheduler.next
    split <;> first | rfl | contradiction
  unfold State.edge
  rw [this]

theorem exec_of_ne_select {s : State} (h : s.ctl.st ≠ .select) (i : Instr) (m : Option Word) :
    exec i s = .next (s.edge m) := by
  have key : ∀ t, dataEdge t s = .next (s.edge m) := by
    intro t
    unfold dataEdge
    split
    · contradiction
    · rw [edge_mux_irrelevant h]
  cases i
  · exact key _
  · exact key _
  · exact key _
  · exact congrArg _ (edge_mux_irrelevant h _ _)

theorem exec_data {i : Instr} {t : Table} {w : Word} {s : State} (hi : i.table = some t)
    (hw : romRead s.cfg t s.ctl.idx = some w) : exec i s = .next (s.edge (some w)) := by
  have key : dataEdge t s = .next (s.edge (some w)) := by
    unfold dataEdge
    rw [hw]
    split
    · contradiction
    · rfl
  cases i <;> simp only [Instr.table, Option.some.injEq, reduceCtorEq] at hi <;> subst hi <;> exact key

theorem exec_silent (c : Code) (s : State) : exec (.svcNone c) s = .next (s.edge none) := rfl

/-- Everything exec can answer: the edge with the form's word on the multiplexer, or the stop of a data form at SELECT
whose address holds no word. -/
theorem exec_eq (i : Instr) (s : State) :
    exec i s = .next (s.edge (formMux i s)) ∨
    (exec i s = .fault .romNoWord ∧ s.ctl.st = .select ∧ (∃ t, i.table = some t) ∧ formMux i s = none) := by
  have key : ∀ t, dataEdge t s = .next (s.edge (romRead s.cfg t s.ctl.idx)) ∨
      (dataEdge t s = .fault .romNoWord ∧ s.ctl.st = .select ∧ romRead s.cfg t s.ctl.idx = none) := by
    intro t
    unfold dataEdge
    split
    · rename_i h1 h2
      exact .inr ⟨rfl, h1, h2⟩
    · exact .inl rfl
  cases i
  · exact (key .t0).imp id (fun h => ⟨h.1, h.2.1, ⟨_, rfl⟩, h.2.2⟩)
  · exact (key .t1).imp id (fun h => ⟨h.1, h.2.1, ⟨_, rfl⟩, h.2.2⟩)
  · exact (key .t2).imp id (fun h => ⟨h.1, h.2.1, ⟨_, rfl⟩, h.2.2⟩)
  · exact .inl rfl

/-- A next state of exec is an edge, with the form's word on the multiplexer. -/
theorem exec_next {i : Instr} {s t : State} (h : exec i s = .next t) : t = s.edge (formMux i s) := by
  rcases exec_eq i s with h' | ⟨h', _⟩ <;> rw [h'] at h
  · exact (Host.Outcome.next.inj h).symm
  · contradiction

/-- From a legal instance with the index in range, exec answers a next state, whatever the form and the state. -/
theorem exec_completes {s : State} (hc : s.cfg.legal = true) (hi : s.ctl.idx < s.cfg.L) (i : Instr) :
    exec i s = .next (s.edge (formMux i s)) := by
  rcases exec_eq i s with h | ⟨_, _, ⟨t, ht⟩, hn⟩
  · exact h
  · obtain ⟨w, hw⟩ := romRead_some hc t hi
    simp [formMux, ht, hw] at hn

/-! ## step -/

theorem step_reset {s : State} (h : s.pins.rst = true) : step s = .next s.resetEdge := by
  simp [step, h]

theorem step_exec {s : State} (h : s.pins.rst = false) : step s = exec s.fetched s := by
  simp [step, h]

/-- Everything a next state of step can be: the reset edge, or an edge with the decoded form's word. -/
theorem step_next {s t : State} (h : step s = .next t) :
    (s.pins.rst = true ∧ t = s.resetEdge) ∨ (s.pins.rst = false ∧ t = s.edge (formMux s.fetched s)) := by
  cases hr : s.pins.rst
  · rw [step_exec hr] at h
    exact .inr ⟨rfl, exec_next h⟩
  · rw [step_reset hr] at h
    exact .inl ⟨rfl, (Host.Outcome.next.inj h).symm⟩

theorem step_cfg {s t : State} (h : step s = .next t) : t.cfg = s.cfg := by
  rcases step_next h with ⟨_, rfl⟩ | ⟨_, rfl⟩ <;> rfl

/-- The table of the form the decoder shows. -/
theorem table_decode (m : SelMap) (c : Code) : (decode m c).table = m.table c := by
  unfold decode
  rcases m.table c with _ | ⟨⟨⟩⟩ <;> rfl

theorem formMux_fetched (s : State) : formMux s.fetched s =
    match s.cfg.selMap.table s.sync2 with
    | some t => romRead s.cfg t s.ctl.idx
    | none => none := by
  unfold formMux State.fetched
  rw [table_decode]

/-! ## state machine, case by case (42_scheduler.md R127 to R137) -/

section Cases

variable {L : Nat} {go busy : Bool} {mux : Option Word} {c : Scheduler}

theorem next_idle (h : c.st = .idle) : c.next L go busy mux = if go then c.enter else c := by
  simp [Scheduler.next, h]

theorem next_assertCs (h : c.st = .assertCs) :
    c.next L go busy mux = { c with csNQ := false, st := .select } := by
  simp [Scheduler.next, h]

theorem next_select (h : c.st = .select) : c.next L go busy mux = c.dispatch mux := by
  simp [Scheduler.next, h]

theorem next_txhLoad (h : c.st = .txhLoad) : c.next L go busy mux = { c with st := .txhWait } := by
  simp [Scheduler.next, h]

theorem next_txhWait (h : c.st = .txhWait) :
    c.next L go busy mux = if busy then c else { c with st := .txlLoad } := by
  simp [Scheduler.next, h]

theorem next_txlLoad (h : c.st = .txlLoad) : c.next L go busy mux = { c with st := .txlWait } := by
  simp [Scheduler.next, h]

theorem next_txlWait (h : c.st = .txlWait) :
    c.next L go busy mux = if busy then c else { c with st := .advance } := by
  simp [Scheduler.next, h]

theorem next_advance (h : c.st = .advance) :
    c.next L go busy mux = { c with idx := advanceIdx L c.idx, st := .deassertCs } := by
  simp [Scheduler.next, h]

theorem next_deassertCs (h : c.st = .deassertCs) :
    c.next L go busy mux = { c with csNQ := true, st := .exit } := by
  simp [Scheduler.next, h]

theorem next_exit (h : c.st = .exit) : c.next L go busy mux = c.leave := by
  simp [Scheduler.next, h]

theorem next_illegal {k : Fin 6} (h : c.st = .illegal k) :
    c.next L go busy mux = { c with st := .idle, dbgQ := false, csNQ := true } := by
  simp [Scheduler.next, h]

end Cases

/-- `go` holds in IDLE only (42_scheduler.md R123). -/
theorem go_false_of_ne_idle {s : State} (h : s.ctl.st ≠ .idle) : s.go = false := by
  simp [State.go, h]

end Sys2Proof.Machine
end

