-- ==== Sys2Proof/Laws/Serial.lean ====
section
/-! SUPPORT. The serial engine: which of 43_serial_tx.md R164 to R168 applies, and the engine's registers in closed form
over the edges of one byte. -/

namespace Sys2Proof.Machine

theorem serial_next_idle {H : Nat} {c : Scheduler} {e : Serial} (hi : c.st.isIllegal = false)
    (hs : c.txStart = none) (hb : e.busy = false) : e.next H c = e := by
  simp [Serial.next, hi, hs, hb]

theorem serial_next_start {H : Nat} {c : Scheduler} {e : Serial} {d : Byte} (hi : c.st.isIllegal = false)
    (hs : c.txStart = some d) : e.next H c = Serial.start H d := by
  simp [Serial.next, hi, hs]

theorem serial_next_shift {H : Nat} {c : Scheduler} {e : Serial} (hi : c.st.isIllegal = false)
    (hs : c.txStart = none) (hb : e.busy = true) : e.next H c = e.shift H := by
  simp [Serial.next, hi, hs, hb]

theorem serial_next_illegal {H : Nat} {c : Scheduler} {e : Serial} (hi : c.st.isIllegal = true) :
    e.next H c = e.forceIdle := by
  simp [Serial.next, hi]

/-- The divider's next count fits the divider's width if its count did. -/
theorem serial_next_divcnt_lt {H : Nat} {e : Serial} (c : Scheduler) (h : e.divcnt < 2 ^ counterWidth H) :
    (e.next H c).divcnt < 2 ^ counterWidth H := by
  have hp := pred_lt_two_pow_counterWidth H
  have h0 := Nat.two_pow_pos (counterWidth H)
  unfold Serial.next
  split
  · exact h0
  · split
    · exact hp
    · split
      · unfold Serial.shift
        split
        · show e.divcnt - 1 < _
          omega
        · unfold Serial.toggle
          split_ifs <;> exact hp
      · exact h

/-- The engine in half period `q` of a byte (0 to 15), `r` edges into it. -/
def inHalf (H : Nat) (d : Byte) (q r : Nat) : Serial where
  busy := true
  sh := d <<< (q / 2)
  bitcnt := BitVec.ofNat 3 (q / 2)
  divcnt := H - 1 - r
  sclkQ := decide (q % 2 = 1)
  mosiQ := d.getLsbD (7 - q / 2)

/-- The engine after the last falling edge of a byte (43_serial_tx.md R167). -/
def afterByte (H : Nat) (d : Byte) : Serial where
  busy := false
  sh := d <<< 7
  bitcnt := 7#3
  divcnt := H - 1
  sclkQ := false
  mosiQ := d.getLsbD 0

theorem start_eq_inHalf (H : Nat) (d : Byte) : Serial.start H d = inHalf H d 0 0 := by
  simp [Serial.start, inHalf]

theorem shift_inHalf_within {H : Nat} (d : Byte) (q : Nat) {r : Nat} (h : r + 1 < H) :
    (inHalf H d q r).shift H = inHalf H d q (r + 1) := by
  have h1 : 0 < H - 1 - r := by omega
  have h2 : H - 1 - r - 1 = H - 1 - (r + 1) := by omega
  simp [Serial.shift, inHalf, h1, h2]

theorem shift_inHalf_toggle {H : Nat} (d : Byte) {q r : Nat} (hq : q < 15) (h : r + 1 = H) :
    (inHalf H d q r).shift H = inHalf H d (q + 1) 0 := by
  have h1 : H - 1 - r = 0 := by omega
  unfold Serial.shift Serial.toggle inHalf
  simp only [h1, Nat.lt_irrefl, if_false]
  interval_cases q <;> simp [← BitVec.shiftLeft_add]

theorem shift_inHalf_last {H : Nat} (d : Byte) {r : Nat} (h : r + 1 = H) :
    (inHalf H d 15 r).shift H = afterByte H d := by
  have h1 : H - 1 - r = 0 := by omega
  simp [Serial.shift, Serial.toggle, inHalf, afterByte, h1]

/-- The engine `n` edges after the start edge of a byte, for `n` up to `16 * H` (43_serial_tx.md R169). -/
def inFlight (H : Nat) (d : Byte) (n : Nat) : Serial :=
  if n < 16 * H then inHalf H d (n / H) (n % H) else afterByte H d

theorem inFlight_zero {H : Nat} (hH : 1 ≤ H) (d : Byte) : inFlight H d 0 = Serial.start H d := by
  rw [start_eq_inHalf, inFlight, if_pos (by omega), Nat.zero_div, Nat.zero_mod]

theorem inFlight_end (H : Nat) (d : Byte) : inFlight H d (16 * H) = afterByte H d := by
  simp [inFlight]

theorem inFlight_busy {H : Nat} (d : Byte) (n : Nat) : (inFlight H d n).busy = decide (n < 16 * H) := by
  unfold inFlight
  split <;> simp_all [inHalf, afterByte]

/-- One edge of a byte in flight moves the closed form on by one edge. -/
theorem shift_inFlight {H : Nat} (d : Byte) {n : Nat} (hn : n < 16 * H) :
    (inFlight H d n).shift H = inFlight H d (n + 1) := by
  have hH : 0 < H := by omega
  have hq : n / H < 16 := (Nat.div_lt_iff_lt_mul hH).2 hn
  have hr : n % H < H := Nat.mod_lt n hH
  have hd : H * (n / H) + n % H = n := Nat.div_add_mod n H
  rw [inFlight, if_pos hn]
  by_cases h : n % H + 1 < H
  · rw [shift_inHalf_within d _ h]
    have hn1 : n + 1 = (n % H + 1) + H * (n / H) := by omega
    have e1 : (n + 1) / H = n / H := by
      rw [hn1, Nat.add_mul_div_left _ _ hH, Nat.div_eq_of_lt h, Nat.zero_add]
    have e2 : (n + 1) % H = n % H + 1 := by
      rw [hn1, Nat.add_mul_mod_self_left, Nat.mod_eq_of_lt h]
    have hlt : n + 1 < 16 * H := (Nat.div_lt_iff_lt_mul hH).1 (by rw [e1]; exact hq)
    rw [inFlight, if_pos hlt, e1, e2]
  · have he : n % H + 1 = H := by omega
    have hn1 : n + 1 = H * (n / H + 1) := by rw [Nat.mul_add]; omega
    have e1 : (n + 1) / H = n / H + 1 := by rw [hn1, Nat.mul_div_cancel_left _ hH]
    have e2 : (n + 1) % H = 0 := by rw [hn1, Nat.mul_mod_right]
    by_cases hl : n / H < 15
    · rw [shift_inHalf_toggle d hl he]
      have hlt : n + 1 < 16 * H := (Nat.div_lt_iff_lt_mul hH).1 (by rw [e1]; omega)
      rw [inFlight, if_pos hlt, e1, e2]
    · have h15 : n / H = 15 := by omega
      rw [h15, shift_inHalf_last d he, inFlight, if_neg]
      rw [hn1, h15]
      omega

end Sys2Proof.Machine
end

