-- ==== Sys2Proof/Laws/Run.lean ====
section
/-! SUPPORT. Runs of several edges: composition, and the pin levels a run reads. -/

namespace Sys2Proof.Machine

@[simp] theorem run_zero (s : State) : run 0 s = .next s := rfl

theorem run_succ {s t : State} (h : step s = .next t) (n : Nat) : run (n + 1) s = run n t := by
  simp [run, h]

/-- A run that goes on takes a first edge. -/
theorem run_succ_inv {s u : State} {n : Nat} (h : run (n + 1) s = .next u) :
    ∃ t, step s = .next t ∧ run n t = .next u := by
  cases hs : step s <;> simp [run, hs] at h
  exact ⟨_, rfl, h⟩

/-- The host's run of this machine is this run. -/
theorem core_run_eq (n : Nat) (s : State) : Sys2Proof.core.run n s = run n s := by
  induction n generalizing s with
  | zero => rfl
  | succ n ih =>
    cases hs : step s <;> have hs' : Sys2Proof.core.step s = _ := hs <;>
    simp only [Host.Core.run, hs', run, hs] <;>
    first | exact ih _ | rfl

theorem run_add {s t : State} {a : Nat} (h : run a s = .next t) (b : Nat) : run (a + b) s = run b t := by
  induction a generalizing s with
  | zero => cases h; rw [Nat.zero_add]
  | succ a ih =>
    obtain ⟨v, hv, h⟩ := run_succ_inv h
    rw [Nat.add_right_comm, run_succ hv]
    exact ih h

/-- The last edge of a run. -/
theorem run_snoc {s t u : State} {n : Nat} (h : run n s = .next t) (hu : step t = .next u) :
    run (n + 1) s = .next u := by
  rw [run_add h 1, run_succ hu 0, run_zero]

theorem trace_succ {s t : State} (h : step s = .next t) (n : Nat) : trace (n + 1) s = s :: trace n t := by
  simp [trace, h]

theorem serve_succ {i : Instr} {s t : State} (h : exec i s = .next t) (n : Nat) :
    serve i (n + 1) s = serve i n t := by
  simp [serve, h]

theorem serveTrace_succ {i : Instr} {s t : State} (h : exec i s = .next t) (n : Nat) :
    serveTrace i (n + 1) s = s :: serveTrace i n t := by
  simp [serveTrace, h]

theorem serve_add {i : Instr} {s t : State} {a : Nat} (h : serve i a s = .next t) (b : Nat) :
    serve i (a + b) s = serve i b t := by
  induction a generalizing s with
  | zero => cases h; rw [Nat.zero_add]
  | succ a ih =>
    rw [Nat.add_right_comm]
    cases hs : exec i s with
    | next u => rw [serve_succ hs] at h ⊢; exact ih h
    | fault r => simp [serve, hs] at h
    | refused r => simp [serve, hs] at h

theorem serve_snoc {i : Instr} {s t u : State} {n : Nat} (h : serve i n s = .next t) (hu : exec i t = .next u) :
    serve i (n + 1) s = .next u := by
  rw [serve_add h 1, serve_succ hu 0]
  rfl

/-- A trace always starts with its first state. -/
theorem trace_cons (n : Nat) (s : State) : ∃ r, trace n s = s :: r := by
  cases n with
  | zero => exact ⟨[], rfl⟩
  | succ n => unfold trace; cases step s <;> exact ⟨_, rfl⟩

theorem serveTrace_cons (i : Instr) (n : Nat) (s : State) : ∃ r, serveTrace i n s = s :: r := by
  cases n with
  | zero => exact ⟨[], rfl⟩
  | succ n => unfold serveTrace; cases exec i s <;> exact ⟨_, rfl⟩

/-- What a step does to the pin levels to come: they move on by one edge. -/
theorem step_pinsAt {s t : State} (h : step s = .next t) (k : Nat) : t.pinsAt k = s.pinsAt (k + 1) := by
  rcases step_next h with ⟨_, rfl⟩ | ⟨_, rfl⟩ <;> simp

theorem exec_pinsAt {i : Instr} {s t : State} (h : exec i s = .next t) (k : Nat) :
    t.pinsAt k = s.pinsAt (k + 1) := by
  rw [exec_next h, edge_pinsAt]

/-- A stretch without reset, after its first edge. -/
theorem noReset_step {s t : State} {n : Nat} (h : step s = .next t) (hr : s.noReset (n + 1)) : t.noReset n :=
  fun k hk => by rw [step_pinsAt h]; exact hr (k + 1) (by omega)

theorem noReset_first {s : State} {n : Nat} (hr : s.noReset (n + 1)) : s.pins.rst = false := hr 0 (by omega)

end Sys2Proof.Machine
end

