-- ==== Sys2Proof/Laws/Frame.lean ====
section
/-! SUPPORT. What the frame log of 43_serial_tx.md R176 holds at each state of a service, as an invariant one edge keeps. -/

namespace Sys2Proof.Machine

/-- How many bits of the byte in transfer the DAC has sampled. -/
def sampledBits (e : Serial) : Nat :=
  if e.busy then e.bitcnt.toNat + (if e.sclkQ then 1 else 0) else 8

/-- The bits of the open frame at a service state; `cur` is the whole frame of the service. -/
def openBits (c : Scheduler) (e : Serial) (cur : Frame) : Option Frame :=
  match c.st with
  | .select => some []
  | .txhLoad => some []
  | .txhWait => some ((byteBits (hiByte c.wordQ)).take (sampledBits e))
  | .txlLoad => some (byteBits (hiByte c.wordQ))
  | .txlWait => some (byteBits (hiByte c.wordQ) ++ (byteBits (loByte c.wordQ)).take (sampledBits e))
  | .advance => some cur
  | .deassertCs => some cur
  | _ => none

/-- The engine is shifting byte `d`. -/
def Serial.carries (e : Serial) (d : Byte) : Prop :=
  e.busy = true → e.sh = d <<< e.bitcnt.toNat ∧ e.mosiQ = d.getLsbD (7 - e.bitcnt.toNat)

/-- The states that send bytes. -/
def Phase.sends : Phase → Bool
  | .txhLoad => true
  | .txhWait => true
  | .txlLoad => true
  | .txlWait => true
  | _ => false

/-- A state inside a legal service, and the log so far: `done` are the closed frames, `cur` the frame being built. -/
structure Tracks (s : State) (cur : Frame) (done : List Frame) (l : FrameLog) : Prop where
  legalSt : s.ctl.st.isIllegal = false
  csN : s.ctl.csNQ = !s.ctl.st.frameOpen
  busy : s.ser.busy = true → s.ctl.st.waits = true
  sclk : s.ser.sclkQ = true → s.ser.busy = true
  word : s.ctl.st.sends = true → cur = wordBits s.ctl.wordQ
  hi : s.ctl.st = .txhWait → s.ser.carries (hiByte s.ctl.wordQ)
  lo : s.ctl.st = .txlWait → s.ser.carries (loByte s.ctl.wordQ)
  opened : l.opened = openBits s.ctl s.ser cur
  closed : l.closed = done

/-- The frame a SELECT edge fixes; at any other edge the frame stays. -/
def nextFrame (s : State) (m : Option Word) (cur : Frame) : Frame :=
  if s.ctl.st = .select then (match m with | some w => wordBits w | none => []) else cur

/-- The closed frames after an edge. -/
def nextDone (s : State) (cur : Frame) (done : List Frame) : List Frame :=
  if s.ctl.st = .deassertCs then done ++ [cur] else done

theorem take_byteBits_succ (d : Byte) {n : Nat} (h : n < 8) :
    (byteBits d).take (n + 1) = (byteBits d).take n ++ [d.getLsbD (7 - n)] := by
  interval_cases n <;> rfl

theorem take_byteBits_all (d : Byte) : (byteBits d).take 8 = byteBits d := rfl

/-- What one edge of a byte in flight does to the engine's consistency and to the bits sampled. -/
theorem shift_carries {H : Nat} {e : Serial} {d : Byte} (hb : e.busy = true) (hc : e.carries d) :
    (e.shift H).carries d ∧
    ((e.shift H).sclkQ = true → (e.shift H).busy = true) ∧
    (if e.sclkQ = false ∧ (e.shift H).sclkQ = true
      then (byteBits d).take (sampledBits (e.shift H)) = (byteBits d).take (sampledBits e) ++ [(e.shift H).mosiQ]
      else (byteBits d).take (sampledBits (e.shift H)) = (byteBits d).take (sampledBits e)) := by
  obtain ⟨hsh, hm⟩ := hc hb
  have hlt : e.bitcnt.toNat < 8 := e.bitcnt.isLt
  unfold Serial.shift
  by_cases hd : 0 < e.divcnt
  · rw [if_pos hd]
    refine ⟨fun _ => ⟨hsh, hm⟩, fun _ => hb, ?_⟩
    rw [if_neg (by rintro ⟨h1, h2⟩; simp [h1] at h2)]
    rfl
  · rw [if_neg hd]
    unfold Serial.toggle
    by_cases hs : e.sclkQ = false
    · rw [if_pos hs]
      refine ⟨fun _ => ⟨hsh, hm⟩, fun _ => hb, ?_⟩
      rw [if_pos ⟨hs, rfl⟩]
      simp only [sampledBits, hb, hs, if_true, Bool.false_eq_true, if_false, Nat.add_zero]
      rw [take_byteBits_succ d hlt, hm]
    · rw [if_neg hs]
      have hs' : e.sclkQ = true := by simpa using hs
      by_cases h7 : e.bitcnt = 7#3
      · rw [if_pos h7]
        refine ⟨fun h => by simp at h, fun h => by simp at h, ?_⟩
        rw [if_neg (by simp)]
        simp [sampledBits, hb, hs', h7]
      · rw [if_neg h7]
        have h7n : e.bitcnt.toNat ≠ 7 := fun h => h7 (BitVec.eq_of_toNat_eq (by simpa using h))
        have hn : (e.bitcnt + 1#3).toNat = e.bitcnt.toNat + 1 := by bv_omega
        refine ⟨fun _ => ⟨?_, ?_⟩, fun h => by simp at h, ?_⟩
        · simp only [hn, hsh]
          rw [BitVec.shiftLeft_add]
        · simp only [hn, hsh, BitVec.getLsbD_shiftLeft]
          have h6 : ¬ (6 < e.bitcnt.toNat) := by omega
          rw [show 7 - (e.bitcnt.toNat + 1) = 6 - e.bitcnt.toNat by omega]
          simp [h6]
        · rw [if_neg (by simp)]
          simp [sampledBits, hb, hs', hn]

/-- The start of a byte: consistent, nothing sampled yet. -/
theorem start_carries (H : Nat) (d : Byte) : (Serial.start H d).carries d ∧ sampledBits (Serial.start H d) = 0 := by
  constructor
  · intro _
    simp [Serial.start]
  · simp [sampledBits, Serial.start]

/-- One edge keeps `Tracks`, the log having scanned the edge's pins. -/
theorem tracks_edge {s : State} {cur : Frame} {done : List Frame} {l : FrameLog} (h : Tracks s cur done l)
    (m : Option Word) :
    Tracks (s.edge m) (nextFrame s m cur) (nextDone s cur done) (l.scan s.outputs (s.edge m).outputs) := by
  obtain ⟨hl, hc, hb, hs, hw, hhi, hlo, ho, hd⟩ := h
  cases hst : s.ctl.st <;> simp only [hst, Phase.isIllegal, Phase.frameOpen, Phase.waits, Phase.sends, openBits,
    Bool.not_true, Bool.not_false, reduceCtorEq, imp_false, Bool.not_eq_true, forall_const, false_implies] at hl hc hb hw hhi hlo ho
  case txhLoad | txlLoad =>
    have e := serial_next_start (H := s.cfg.H) (e := s.ser) (by rw [hst]; rfl) (by unfold Scheduler.txStart; rw [hst])
    obtain ⟨hk, hz⟩ := start_carries s.cfg.H (hiByte s.ctl.wordQ)
    obtain ⟨hk', hz'⟩ := start_carries s.cfg.H (loByte s.ctl.wordQ)
    have hsc : ∀ d, (Serial.start s.cfg.H d).sclkQ = false := fun _ => rfl
    constructor <;>
    simp_all [Scheduler.next, nextFrame, nextDone, FrameLog.scan, FrameLog.openAt, FrameLog.sampleAt,
      FrameLog.closeAt, Phase.isIllegal, Phase.frameOpen, Phase.waits, Phase.sends, openBits]
  case txhWait | txlWait =>
    cases hbz : s.ser.busy
    · have e := serial_next_idle (H := s.cfg.H) (c := s.ctl) (by rw [hst]; rfl)
        (by unfold Scheduler.txStart; rw [hst]) hbz
      have hsf : s.ser.sclkQ = false := by cases hq : s.ser.sclkQ <;> simp_all
      have h8 : sampledBits s.ser = 8 := by simp [sampledBits, hbz]
      constructor <;>
      simp_all [Scheduler.next, nextFrame, nextDone, FrameLog.scan, FrameLog.openAt, FrameLog.sampleAt,
        FrameLog.closeAt, Phase.isIllegal, Phase.frameOpen, Phase.waits, Phase.sends, openBits,
        take_byteBits_all, wordBits]
    · have e := serial_next_shift (H := s.cfg.H) (c := s.ctl) (by rw [hst]; rfl)
        (by unfold Scheduler.txStart; rw [hst]) hbz
      obtain ⟨k1, k2, k3⟩ := shift_carries (H := s.cfg.H) hbz (by assumption)
      cases hq : s.ser.sclkQ <;> cases hp : (s.ser.shift s.cfg.H).sclkQ <;>
      constructor <;>
      simp_all [-List.take_eq_take_iff, Scheduler.next, nextFrame, nextDone, FrameLog.scan, FrameLog.openAt,
        FrameLog.sampleAt, FrameLog.closeAt, Phase.isIllegal, Phase.frameOpen, Phase.waits, Phase.sends, openBits]
  all_goals
    have e := serial_next_idle (H := s.cfg.H) (c := s.ctl) (by rw [hst]; rfl)
      (by unfold Scheduler.txStart; rw [hst]) hb
    have hsf : s.ser.sclkQ = false := by cases hq : s.ser.sclkQ <;> simp_all
    cases m <;> cases hgo : s.go <;>
    constructor <;>
    simp_all [Scheduler.next, Scheduler.enter, Scheduler.dispatch, Scheduler.leave, nextFrame, nextDone,
      FrameLog.scan, FrameLog.openAt, FrameLog.sampleAt, FrameLog.closeAt, Phase.isIllegal, Phase.frameOpen,
      Phase.waits, Phase.sends, openBits]

end Sys2Proof.Machine
end

