-- ==== Sys2Proof/Laws/Service.lean ====
section
/-! SUPPORT. The path of a machine that is not reset, as a function of the edge number, and the closed form of a service along
it (42_scheduler.md R140, R143). Both `serve` and `run` follow such a path. -/

namespace Sys2Proof.Machine

/-- The states after 0, 1, 2, ... edges, with the word `f` shows on the multiplexer at each. -/
def path (f : State → Option Word) (s : State) : Nat → State
  | 0 => s
  | k + 1 => (path f s k).edge (f (path f s k))

@[simp] theorem path_zero (f : State → Option Word) (s : State) : path f s 0 = s := rfl

theorem path_succ (f : State → Option Word) (s : State) (k : Nat) :
    path f s (k + 1) = (path f s k).edge (f (path f s k)) := rfl

/-- The path from its second state. -/
theorem path_tail (f : State → Option Word) (s : State) (k : Nat) :
    path f (s.edge (f s)) k = path f s (k + 1) := by
  induction k with
  | zero => rfl
  | succ k ih => rw [path_succ, ih, ← path_succ]

@[simp] theorem path_cfg (f : State → Option Word) (s : State) (k : Nat) : (path f s k).cfg = s.cfg := by
  induction k with
  | zero => rfl
  | succ k ih => rw [path_succ, edge_cfg, ih]

@[simp] theorem path_pinsAt (f : State → Option Word) (s : State) (k j : Nat) :
    (path f s k).pinsAt j = s.pinsAt (k + j) := by
  induction k generalizing j with
  | zero => rw [Nat.zero_add]; rfl
  | succ k ih => rw [path_succ, edge_pinsAt, ih]; congr 1; omega

/-- An edge keeps the index in range. -/
theorem edge_idx_lt {s : State} (h : s.ctl.idx < s.cfg.L) (m : Option Word) : (s.edge m).ctl.idx < s.cfg.L := by
  have e := advanceIdx_eq_mod h
  have hm : (s.ctl.idx + 1) % s.cfg.L < s.cfg.L := Nat.mod_lt _ (by omega)
  rw [edge_ctl]
  cases hst : s.ctl.st <;> cases m <;> cases s.go <;> cases s.ser.busy <;>
  simp_all [Scheduler.next, Scheduler.enter, Scheduler.dispatch, Scheduler.leave]

theorem path_idx_lt {f : State → Option Word} {s : State} (h : s.ctl.idx < s.cfg.L) (k : Nat) :
    (path f s k).ctl.idx < s.cfg.L := by
  induction k with
  | zero => exact h
  | succ k ih =>
    have := edge_idx_lt (s := path f s k) (by simpa using ih) (f (path f s k))
    simpa [path_succ] using this

/-- Edges under one form follow the path of the form's table. -/
theorem serve_eq_path {s : State} (hc : s.cfg.legal = true) (hi : s.ctl.idx < s.cfg.L) (i : Instr) (k : Nat) :
    serve i k s = .next (path (formMux i) s k) := by
  induction k with
  | zero => rfl
  | succ k ih => exact serve_snoc ih (exec_completes (by simpa using hc) (by simpa using path_idx_lt hi k) i)

/-- The word the decoded form's table shows. -/
def shownWord (s : State) : Option Word := formMux s.fetched s

/-- A run without reset follows the path of the decoded forms. -/
theorem run_eq_path {s : State} (hc : s.cfg.legal = true) (hi : s.ctl.idx < s.cfg.L) {n : Nat} (hr : s.noReset n)
    {k : Nat} (hk : k ≤ n) : run k s = .next (path shownWord s k) := by
  induction k with
  | zero => rfl
  | succ k ih =>
    refine run_snoc (ih (by omega)) ?_
    rw [step_exec]
    · exact exec_completes (by simpa using hc) (by simpa using path_idx_lt hi k) _
    · rw [State.pins, path_pinsAt]
      exact hr k (by omega)

theorem serveTrace_eq_path {s : State} (hc : s.cfg.legal = true) (hi : s.ctl.idx < s.cfg.L) (i : Instr) (n : Nat) :
    serveTrace i n s = (List.range (n + 1)).map (path (formMux i) s) := by
  induction n generalizing s with
  | zero => rfl
  | succ n ih =>
    rw [serveTrace_succ (exec_completes hc hi i), ih (by simpa using hc) (by simpa using edge_idx_lt hi _),
      List.range_succ_eq_map (n := n + 1)]
    simp only [List.map_cons, List.map_map, path_zero]
    congr 1
    exact List.map_congr_left (fun k _ => path_tail _ _ _)

theorem trace_eq_path {s : State} (hc : s.cfg.legal = true) (hi : s.ctl.idx < s.cfg.L) {n : Nat} (hr : s.noReset n) :
    trace n s = (List.range (n + 1)).map (path shownWord s) := by
  induction n generalizing s with
  | zero => rfl
  | succ n ih =>
    have hs : step s = .next (s.edge (shownWord s)) := by
      rw [step_exec (noReset_first hr)]
      exact exec_completes hc hi _
    rw [trace_succ hs, ih (by simpa using hc) (by simpa using edge_idx_lt hi _) (noReset_step hs hr),
      List.range_succ_eq_map (n := n + 1)]
    simp only [List.map_cons, List.map_map, path_zero]
    congr 1
    exact List.map_congr_left (fun k _ => path_tail _ _ _)

/-- The scheduler's registers while a data service that sends `w` has its frame open, at state `p`. -/
def inFrame (c : Scheduler) (w : Word) (p : Phase) : Scheduler :=
  { c with st := p, dbgQ := true, csNQ := false, wordQ := w }

/-- A data service, stretch by stretch: the scheduler's and the engine's registers after each number of edges from the start
edge (42_scheduler.md R140). -/
structure DataService (x : Nat → State) (s : State) (w : Word) : Prop where
  start : (x 1).ctl = { s.ctl with st := .assertCs, dbgQ := true } ∧ (x 1).ser = s.ser
  opened : (x 2).ctl = { s.ctl with st := .select, dbgQ := true, csNQ := false } ∧ (x 2).ser = s.ser
  fetched : (x 3).ctl = inFrame s.ctl w .txhLoad ∧ (x 3).ser = s.ser
  high : ∀ n, n ≤ 16 * s.cfg.H →
    (x (4 + n)).ctl = inFrame s.ctl w .txhWait ∧ (x (4 + n)).ser = inFlight s.cfg.H (hiByte w) n
  between : (x (5 + 16 * s.cfg.H)).ctl = inFrame s.ctl w .txlLoad ∧
    (x (5 + 16 * s.cfg.H)).ser = afterByte s.cfg.H (hiByte w)
  low : ∀ n, n ≤ 16 * s.cfg.H →
    (x (6 + 16 * s.cfg.H + n)).ctl = inFrame s.ctl w .txlWait ∧
    (x (6 + 16 * s.cfg.H + n)).ser = inFlight s.cfg.H (loByte w) n
  sent : (x (7 + 32 * s.cfg.H)).ctl = inFrame s.ctl w .advance ∧
    (x (7 + 32 * s.cfg.H)).ser = afterByte s.cfg.H (loByte w)
  advanced : (x (8 + 32 * s.cfg.H)).ctl =
      { inFrame s.ctl w .deassertCs with idx := (s.ctl.idx + 1) % s.cfg.L } ∧
    (x (8 + 32 * s.cfg.H)).ser = afterByte s.cfg.H (loByte w)
  closed : (x (9 + 32 * s.cfg.H)).ctl =
      { inFrame s.ctl w .exit with idx := (s.ctl.idx + 1) % s.cfg.L, csNQ := true } ∧
    (x (9 + 32 * s.cfg.H)).ser = afterByte s.cfg.H (loByte w)
  ended : (x (10 + 32 * s.cfg.H)).ctl =
      { st := .idle, dbgQ := false, csNQ := true, idx := (s.ctl.idx + 1) % s.cfg.L, wordQ := w } ∧
    (x (10 + 32 * s.cfg.H)).ser = afterByte s.cfg.H (loByte w)

/-- The code in `sync2` two edges on is the one captured now (42_scheduler.md R139). -/
theorem path_sync2 (f : State → Option Word) (s : State) : (path f s 2).sync2 = s.captured := rfl

/-- The engine through the wait for one byte. -/
theorem path_wait {f : State → Option Word} {s : State} {a : Nat} {c : Scheduler} {d : Byte}
    (hH : 1 ≤ s.cfg.H) (hw : c.st.waits = true)
    (h0 : (path f s a).ctl = c ∧ (path f s a).ser = Serial.start s.cfg.H d) (n : Nat) (hn : n ≤ 16 * s.cfg.H) :
    (path f s (a + n)).ctl = c ∧ (path f s (a + n)).ser = inFlight s.cfg.H d n := by
  induction n with
  | zero => rw [Nat.add_zero, inFlight_zero hH]; exact h0
  | succ n ih =>
    obtain ⟨h1, h2⟩ := ih (by omega)
    have hb : (inFlight s.cfg.H d n).busy = true := by rw [inFlight_busy]; exact decide_eq_true (by omega)
    have hi : c.st.isIllegal = false := by cases hst : c.st <;> simp_all [Phase.waits, Phase.isIllegal]
    have ht : c.txStart = none := by
      unfold Scheduler.txStart
      cases hst : c.st <;> simp_all [Phase.waits]
    rw [← Nat.add_assoc, path_succ, edge_ctl, edge_ser, path_cfg, h1, h2]
    refine ⟨?_, ?_⟩
    · cases hst : c.st <;> simp_all [Phase.waits, Scheduler.next]
    · rw [serial_next_shift hi ht hb, shift_inFlight d (by omega)]

/-- The path from a start edge, the form's word being `w`, is a data service. -/
theorem dataService_path {f : State → Option Word} {s : State} {w : Word} (hH : 1 ≤ s.cfg.H)
    (hi : s.ctl.idx < s.cfg.L) (hgo : s.go = true) (hb : s.ser.busy = false)
    (hf : ∀ u : State, u.cfg = s.cfg → u.ctl.st = .select → u.ctl.idx = s.ctl.idx → u.sync2 = s.captured →
      f u = some w) :
    DataService (path f s) s w := by
  have hst : s.ctl.st = .idle := by
    by_contra h
    rw [go_false_of_ne_idle h] at hgo
    contradiction
  have h1 : (path f s 1).ctl = { s.ctl with st := .assertCs, dbgQ := true } ∧ (path f s 1).ser = s.ser := by
    rw [path_succ, edge_ctl, edge_ser]
    simp only [path_zero]
    rw [next_idle hst, hgo, serial_next_idle (by rw [hst]; rfl) (by unfold Scheduler.txStart; rw [hst]) hb]
    exact ⟨rfl, rfl⟩
  have h2 : (path f s 2).ctl = { s.ctl with st := .select, dbgQ := true, csNQ := false } ∧
      (path f s 2).ser = s.ser := by
    rw [path_succ, edge_ctl, edge_ser, h1.1, h1.2, next_assertCs rfl, serial_next_idle rfl rfl hb]
    exact ⟨rfl, rfl⟩
  have hmux : f (path f s 2) = some w := hf _ (path_cfg _ _ _) (by rw [h2.1]) (by rw [h2.1]) rfl
  have h3 : (path f s 3).ctl = inFrame s.ctl w .txhLoad ∧ (path f s 3).ser = s.ser := by
    rw [path_succ, edge_ctl, edge_ser, h2.1, h2.2, hmux, next_select rfl, serial_next_idle rfl rfl hb]
    exact ⟨rfl, rfl⟩
  have h4 := path_wait (f := f) (s := s) (a := 4) (c := inFrame s.ctl w .txhWait) (d := hiByte w) hH rfl (by
    rw [path_succ, edge_ctl, edge_ser, h3.1, h3.2, next_txhLoad rfl, path_cfg,
      serial_next_start (d := hiByte w) rfl rfl]
    exact ⟨rfl, rfl⟩)
  have h5 : (path f s (5 + 16 * s.cfg.H)).ctl = inFrame s.ctl w .txlLoad ∧
      (path f s (5 + 16 * s.cfg.H)).ser = afterByte s.cfg.H (hiByte w) := by
    obtain ⟨e1, e2⟩ := h4 (16 * s.cfg.H) (le_refl _)
    rw [inFlight_end] at e2
    rw [show 5 + 16 * s.cfg.H = 4 + 16 * s.cfg.H + 1 by omega, path_succ, edge_ctl, edge_ser, e1, e2,
      next_txhWait rfl, serial_next_idle rfl rfl rfl]
    exact ⟨rfl, rfl⟩
  have h6 := path_wait (f := f) (s := s) (a := 6 + 16 * s.cfg.H) (c := inFrame s.ctl w .txlWait) (d := loByte w) hH rfl (by
    rw [show 6 + 16 * s.cfg.H = 5 + 16 * s.cfg.H + 1 by omega, path_succ, edge_ctl, edge_ser, h5.1, h5.2,
      next_txlLoad rfl, path_cfg, serial_next_start (d := loByte w) rfl rfl]
    exact ⟨rfl, rfl⟩)
  have h7 : (path f s (7 + 32 * s.cfg.H)).ctl = inFrame s.ctl w .advance ∧
      (path f s (7 + 32 * s.cfg.H)).ser = afterByte s.cfg.H (loByte w) := by
    obtain ⟨e1, e2⟩ := h6 (16 * s.cfg.H) (le_refl _)
    rw [inFlight_end] at e2
    rw [show 7 + 32 * s.cfg.H = 6 + 16 * s.cfg.H + 16 * s.cfg.H + 1 by omega, path_succ, edge_ctl, edge_ser, e1, e2,
      next_txlWait rfl, serial_next_idle rfl rfl rfl]
    exact ⟨rfl, rfl⟩
  have h8 : (path f s (8 + 32 * s.cfg.H)).ctl =
        { inFrame s.ctl w .deassertCs with idx := (s.ctl.idx + 1) % s.cfg.L } ∧
      (path f s (8 + 32 * s.cfg.H)).ser = afterByte s.cfg.H (loByte w) := by
    rw [show 8 + 32 * s.cfg.H = 7 + 32 * s.cfg.H + 1 by omega, path_succ, edge_ctl, edge_ser, h7.1, h7.2,
      next_advance rfl, serial_next_idle rfl rfl rfl, path_cfg, ← advanceIdx_eq_mod hi]
    exact ⟨rfl, rfl⟩
  have h9 : (path f s (9 + 32 * s.cfg.H)).ctl =
        { inFrame s.ctl w .exit with idx := (s.ctl.idx + 1) % s.cfg.L, csNQ := true } ∧
      (path f s (9 + 32 * s.cfg.H)).ser = afterByte s.cfg.H (loByte w) := by
    rw [show 9 + 32 * s.cfg.H = 8 + 32 * s.cfg.H + 1 by omega, path_succ, edge_ctl, edge_ser, h8.1, h8.2,
      next_deassertCs rfl, serial_next_idle rfl rfl rfl]
    exact ⟨rfl, rfl⟩
  have h10 : (path f s (10 + 32 * s.cfg.H)).ctl =
        { st := .idle, dbgQ := false, csNQ := true, idx := (s.ctl.idx + 1) % s.cfg.L, wordQ := w } ∧
      (path f s (10 + 32 * s.cfg.H)).ser = afterByte s.cfg.H (loByte w) := by
    rw [show 10 + 32 * s.cfg.H = 9 + 32 * s.cfg.H + 1 by omega, path_succ, edge_ctl, edge_ser, h9.1, h9.2,
      next_exit rfl, serial_next_idle rfl rfl rfl]
    exact ⟨rfl, rfl⟩
  exact ⟨h1, h2, h3, h4, h5, h6, h7, h8, h9, h10⟩

/-- The stretches of a data service, by the number of edges run. -/
theorem dataService_cases {H k : Nat} (hk : k ≤ 10 + 32 * H) :
    k = 0 ∨ k = 1 ∨ k = 2 ∨ k = 3 ∨ (∃ n, n ≤ 16 * H ∧ k = 4 + n) ∨ k = 5 + 16 * H ∨
    (∃ n, n ≤ 16 * H ∧ k = 6 + 16 * H + n) ∨ k = 7 + 32 * H ∨ k = 8 + 32 * H ∨ k = 9 + 32 * H ∨ k = 10 + 32 * H := by
  by_cases h1 : 4 ≤ k ∧ k ≤ 4 + 16 * H
  · exact .inr (.inr (.inr (.inr (.inl ⟨k - 4, by omega, by omega⟩))))
  · by_cases h2 : 6 + 16 * H ≤ k ∧ k ≤ 6 + 32 * H
    · exact .inr (.inr (.inr (.inr (.inr (.inr (.inl ⟨k - (6 + 16 * H), by omega, by omega⟩))))))
    · omega

end Sys2Proof.Machine
end

