-- ==== Sys2Proof/Laws/FrameRun.lean ====
section
/-! SUPPORT. The frame log along a path, edge by edge, and the counts of a trace. -/

namespace Sys2Proof.Machine

/-- The log of a longer trace is the log of the trace, with one more edge scanned. -/
theorem frameLogFrom_snoc (l : FrameLog) (xs : List OutPins) (a b : OutPins) :
    frameLogFrom l (xs ++ [a] ++ [b]) = (frameLogFrom l (xs ++ [a])).scan a b := by
  induction xs generalizing l with
  | nil => rfl
  | cons x xs ih =>
    cases xs with
    | nil => rfl
    | cons y ys => exact ih (l.scan x y)

/-- The log after `n` edges of a path, from a log so far. -/
def pathLog (f : State → Option Word) (s : State) (l : FrameLog) (n : Nat) : FrameLog :=
  frameLogFrom l (((List.range (n + 1)).map (path f s)).map State.outputs)

theorem pathLog_zero (f : State → Option Word) (s : State) (l : FrameLog) : pathLog f s l 0 = l := rfl

theorem pathLog_succ (f : State → Option Word) (s : State) (l : FrameLog) (n : Nat) :
    pathLog f s l (n + 1) = (pathLog f s l n).scan (path f s n).outputs (path f s (n + 1)).outputs := by
  unfold pathLog
  rw [List.range_succ (n := n + 1), List.range_succ (n := n)]
  simp only [List.map_append, List.map_cons, List.map_nil]
  exact frameLogFrom_snoc _ _ _ _

/-- The frame being built after `k` edges of a path. -/
def curAt (f : State → Option Word) (s : State) (cur : Frame) : Nat → Frame
  | 0 => cur
  | k + 1 => nextFrame (path f s k) (f (path f s k)) (curAt f s cur k)

/-- The frames closed after `k` edges of a path. -/
def doneAt (f : State → Option Word) (s : State) (cur : Frame) (done : List Frame) : Nat → List Frame
  | 0 => done
  | k + 1 => nextDone (path f s k) (curAt f s cur k) (doneAt f s cur done k)

/-- `Tracks` holds along a path. -/
theorem tracks_path {f : State → Option Word} {s : State} {cur : Frame} {done : List Frame} {l : FrameLog}
    (h : Tracks s cur done l) (n : Nat) :
    Tracks (path f s n) (curAt f s cur n) (doneAt f s cur done n) (pathLog f s l n) := by
  induction n with
  | zero => exact h
  | succ n ih =>
    rw [pathLog_succ]
    exact tracks_edge ih _

/-- An idle state with its registers as the invariant has them tracks an empty log. -/
theorem tracks_idle {s : State} (hst : s.ctl.st = .idle) (hcs : s.ctl.csNQ = true) (hb : s.ser.busy = false)
    (hsc : s.ser.sclkQ = false) : Tracks s [] [] .empty := by
  constructor <;> simp [hst, hcs, hb, hsc, Phase.isIllegal, Phase.frameOpen, Phase.sends, openBits, FrameLog.empty]

/-- Edges that neither select nor close a frame leave the frames as they are. -/
theorem framesAt_still {f : State → Option Word} {s : State} {cur : Frame} {done : List Frame} {a n : Nat}
    (h : ∀ k, k < n → (path f s (a + k)).ctl.st ≠ .select ∧ (path f s (a + k)).ctl.st ≠ .deassertCs) :
    curAt f s cur (a + n) = curAt f s cur a ∧ doneAt f s cur done (a + n) = doneAt f s cur done a := by
  induction n with
  | zero => exact ⟨rfl, rfl⟩
  | succ n ih =>
    obtain ⟨h1, h2⟩ := ih (fun k hk => h k (by omega))
    obtain ⟨h3, h4⟩ := h n (by omega)
    rw [← Nat.add_assoc]
    exact ⟨(if_neg h3).trans h1, (if_neg h4).trans h2⟩

/-- A count over a longer trace. -/
theorem countEdges_snoc (g : State → Bool) (xs : List State) (a b : State) :
    countEdges g (xs ++ [a] ++ [b]) = countEdges g (xs ++ [a]) + (if g a then 1 else 0) := by
  induction xs with
  | nil => simp [countEdges]
  | cons x xs ih =>
    cases xs with
    | nil => simp [countEdges]
    | cons y ys =>
      simp only [List.cons_append, countEdges] at ih ⊢
      rw [ih]
      omega

theorem countEdges_path (g : State → Bool) (f : State → Option Word) (s : State) (n : Nat) :
    countEdges g ((List.range (n + 2)).map (path f s)) =
      countEdges g ((List.range (n + 1)).map (path f s)) + (if g (path f s n) then 1 else 0) := by
  rw [List.range_succ (n := n + 1), List.range_succ (n := n)]
  simp only [List.map_append, List.map_cons, List.map_nil]
  exact countEdges_snoc _ _ _ _

/-- The codes read over a longer trace. -/
theorem selectedCodes_snoc (xs : List State) (a b : State) :
    selectedCodes (xs ++ [a] ++ [b]) =
      selectedCodes (xs ++ [a]) ++ (if a.ctl.st = .select then [a.sync2] else []) := by
  induction xs with
  | nil => simp only [List.nil_append, List.cons_append, selectedCodes]
  | cons x xs ih =>
    cases xs with
    | nil => simp only [List.nil_append, List.cons_append, selectedCodes]; split <;> simp
    | cons y ys =>
      simp only [List.cons_append, selectedCodes] at ih ⊢
      rw [ih]
      split <;> simp

theorem selectedCodes_path (f : State → Option Word) (s : State) (n : Nat) :
    selectedCodes ((List.range (n + 2)).map (path f s)) =
      selectedCodes ((List.range (n + 1)).map (path f s)) ++
        (if (path f s n).ctl.st = .select then [(path f s n).sync2] else []) := by
  rw [List.range_succ (n := n + 1), List.range_succ (n := n)]
  simp only [List.map_append, List.map_cons, List.map_nil]
  exact selectedCodes_snoc _ _ _

end Sys2Proof.Machine
end

