-- ==== Sys2Proof/Laws/PerInstr.lean ====
section
/-! SUPPORT. Facts about each service form as syntax, one lemma per constructor. -/

namespace Sys2Proof.Laws.CodeOfForm

/-- Under every map the form is well formed for, the code that selects it is the code of its table, and an undefined code
for the form with no table (30_encoding.md R73, R80). -/
def Statement (i : Instr) : Prop := ∀ m : SelMap, i.wf m = true → m.table (encode m i) = i.table

theorem svcT0 : Statement .svcT0 := fun _ h => (SelMap.table_eq_some h).2 rfl

theorem svcT1 : Statement .svcT1 := fun _ h => (SelMap.table_eq_some h).2 rfl

theorem svcT2 : Statement .svcT2 := fun _ h => (SelMap.table_eq_some h).2 rfl

theorem svcNone (c : Code) : Statement (.svcNone c) := by
  intro m h
  simp only [Instr.wf, Bool.and_eq_true, decide_eq_true_eq, and_assoc] at h
  exact SelMap.table_eq_none.2 h.2

end Sys2Proof.Laws.CodeOfForm
end

