-- ==== Sys2Proof/Laws/Phase.lean ====
section
/-! SUPPORT. Which service state an edge leads to, read backwards: the transitions of 42_scheduler.md R125 in groups. -/

namespace Sys2Proof.Machine

/-- A state that sends, or ADVANCE, is none of the others. -/
theorem Phase.sends_or_advance_ne {p : Phase} (h : p.sends = true ∨ p = .advance) :
    p ≠ .idle ∧ p ≠ .assertCs ∧ p ≠ .select ∧ p ≠ .exit ∧ p ≠ .deassertCs ∧ p.isIllegal = false := by
  cases p <;> simp [Phase.sends, Phase.isIllegal] at h ⊢

section Next

variable {c : Scheduler} {L : Nat} {go busy : Bool} {m : Option Word}

/-- SELECT is entered from ASSERT_CS alone. -/
theorem from_assertCs_of_next_select (h : (c.next L go busy m).st = .select) : c.st = .assertCs := by
  unfold Scheduler.next Scheduler.enter Scheduler.dispatch Scheduler.leave at h
  split at h <;> first | assumption | (simp at h) | (split at h <;> simp_all)

/-- ASSERT_CS is entered at a start edge alone. -/
theorem next_ne_assertCs_of_not_go : (c.next L false busy m).st ≠ .assertCs := by
  intro h
  unfold Scheduler.next Scheduler.enter Scheduler.dispatch Scheduler.leave at h
  split at h <;> first | (simp at h; done) | (split at h <;> simp_all; done)

/-- Outside SELECT, ADVANCE and DEASSERT_CS the index stays, a sending state goes on to a sending state or to ADVANCE, and
any other to IDLE, ASSERT_CS or SELECT. -/
theorem next_elsewhere (h1 : c.st ≠ .select) (h2 : c.st ≠ .advance) (h3 : c.st ≠ .deassertCs)
    (h4 : c.st.isIllegal = false) :
    (c.next L go busy m).idx = c.idx ∧
    (((c.st = .idle ∨ c.st = .assertCs ∨ c.st = .exit) ∧
      ((c.next L go busy m).st = .idle ∨ (c.next L go busy m).st = .assertCs ∨ (c.next L go busy m).st = .select)) ∨
     (c.st.sends = true ∧ ((c.next L go busy m).st.sends = true ∨ (c.next L go busy m).st = .advance))) := by
  cases hst : c.st <;> simp [hst, Phase.isIllegal] at h1 h2 h3 h4 <;> cases go <;> cases busy <;>
  simp [Scheduler.next, hst, Scheduler.enter, Scheduler.leave, Phase.sends]

end Next

/-! ## How long a service still lasts (70_reset_and_hazards.md R229) -/

/-- The edges until the byte in flight ends; 0 when none is. -/
def byteEdgesLeft (H : Nat) (e : Serial) : Nat :=
  if e.busy then (15 - (2 * e.bitcnt.toNat + (if e.sclkQ then 1 else 0))) * H + e.divcnt + 1 else 0

/-- A bound on the edges until a running service is back in IDLE, reached by a data service. -/
def edgesLeft (H : Nat) (c : Scheduler) (e : Serial) : Nat :=
  match c.st with
  | .idle => 0
  | .assertCs => 9 + 32 * H
  | .select => 8 + 32 * H
  | .txhLoad => 7 + 32 * H
  | .txhWait => 6 + 16 * H + byteEdgesLeft H e
  | .txlLoad => 5 + 16 * H
  | .txlWait => 4 + byteEdgesLeft H e
  | .advance => 3
  | .deassertCs => 2
  | .exit => 1
  | .illegal _ => 0

theorem byteEdgesLeft_start {H : Nat} (hH : 1 ≤ H) (d : Byte) : byteEdgesLeft H (Serial.start H d) = 16 * H := by
  simp [byteEdgesLeft, Serial.start]
  omega

theorem byteEdgesLeft_shift {H : Nat} (hH : 1 ≤ H) {e : Serial} (hb : e.busy = true) :
    byteEdgesLeft H (e.shift H) + 1 = byteEdgesLeft H e := by
  have hlt : e.bitcnt.toNat < 8 := e.bitcnt.isLt
  unfold Serial.shift
  split
  · simp [byteEdgesLeft, hb]
    omega
  · have h0 : e.divcnt = 0 := by omega
    unfold Serial.toggle
    split
    · rename_i hs
      simp only [byteEdgesLeft, hb, hs, h0, if_true, Bool.false_eq_true, if_false, Nat.add_zero]
      rw [show 15 - 2 * e.bitcnt.toNat = (15 - (2 * e.bitcnt.toNat + 1)) + 1 by omega, Nat.add_mul]
      omega
    · rename_i hs
      have hs : e.sclkQ = true := by simpa using hs
      split
      · rename_i h7
        simp [byteEdgesLeft, hb, hs, h0, h7]
      · rename_i h7
        have h7n : e.bitcnt.toNat ≠ 7 := fun h => h7 (BitVec.eq_of_toNat_eq (by simpa using h))
        have hn : (e.bitcnt + 1#3).toNat = e.bitcnt.toNat + 1 := by bv_omega
        simp only [byteEdgesLeft, hb, hs, h0, hn, if_true, Bool.false_eq_true, if_false, Nat.add_zero, Nat.mul_add,
          Nat.mul_one]
        rw [show 15 - (2 * e.bitcnt.toNat + 1) = (15 - (2 * e.bitcnt.toNat + 2)) + 1 by omega, Nat.add_mul]
        omega

/-- Each edge of a running service leaves at least one edge less. -/
theorem edgesLeft_next {s : State} (hH : 1 ≤ s.cfg.H) (hl : s.ctl.st.isIllegal = false) (hni : s.ctl.st ≠ .idle)
    (m : Option Word) :
    edgesLeft s.cfg.H (s.edge m).ctl (s.edge m).ser + 1 ≤ edgesLeft s.cfg.H s.ctl s.ser := by
  rw [edge_ctl, edge_ser]
  cases hst : s.ctl.st
  case idle => contradiction
  case illegal k => simp [hst, Phase.isIllegal] at hl
  case assertCs =>
    rw [next_assertCs hst]
    simp [edgesLeft, hst]
  case select =>
    rw [next_select hst]
    unfold Scheduler.dispatch
    cases m <;> simp [edgesLeft, hst] <;> omega
  case txhLoad =>
    rw [next_txhLoad hst, serial_next_start (by rw [hst]; rfl) (by unfold Scheduler.txStart; rw [hst])]
    simp [edgesLeft, hst, byteEdgesLeft_start hH]
    omega
  case txlLoad =>
    rw [next_txlLoad hst, serial_next_start (by rw [hst]; rfl) (by unfold Scheduler.txStart; rw [hst])]
    simp [edgesLeft, hst, byteEdgesLeft_start hH]
  case txhWait =>
    rw [next_txhWait hst]
    cases hb : s.ser.busy
    · simp [edgesLeft, hst, byteEdgesLeft, hb]
    · rw [serial_next_shift (by rw [hst]; rfl) (by unfold Scheduler.txStart; rw [hst]) hb]
      have := byteEdgesLeft_shift hH hb
      simp [edgesLeft, hst]
      omega
  case txlWait =>
    rw [next_txlWait hst]
    cases hb : s.ser.busy
    · simp [edgesLeft, hst, byteEdgesLeft, hb]
    · rw [serial_next_shift (by rw [hst]; rfl) (by unfold Scheduler.txStart; rw [hst]) hb]
      have := byteEdgesLeft_shift hH hb
      simp [edgesLeft, hst]
      omega
  case advance => rw [next_advance hst]; simp [edgesLeft, hst]
  case deassertCs => rw [next_deassertCs hst]; simp [edgesLeft, hst]
  case exit => rw [next_exit hst]; simp [edgesLeft, hst, Scheduler.leave]

end Sys2Proof.Machine
end

