-- ==== Sys2Proof/Laws/Rom.lean ====
section
/-! SUPPORT. The ROM keeps its canonical form: every operation of the machine leaves it as it is, and the reset instance's
ROM has it (20_memory.md R54, R61). -/

namespace Sys2Proof.Machine

/-- No next state of exec has another ROM. -/
theorem exec_cfg {i : Instr} {s t : State} (h : exec i s = .next t) : t.cfg = s.cfg := by
  rw [exec_next h, edge_cfg]

theorem exec_wf {i : Instr} {s t : State} (h : exec i s = .next t) (hw : Memory.wf s.cfg = true) :
    Memory.wf t.cfg = true := by
  rwa [exec_cfg h]

theorem step_wf {s t : State} (h : step s = .next t) (hw : Memory.wf s.cfg = true) : Memory.wf t.cfg = true := by
  rwa [step_cfg h]

theorem run_cfg {n : Nat} {s u : State} (h : run n s = .next u) : u.cfg = s.cfg := by
  induction n generalizing s with
  | zero => cases h; rfl
  | succ n ih =>
    obtain ⟨t, ht, hr⟩ := run_succ_inv h
    rw [ih hr, step_cfg ht]

theorem run_wf {n : Nat} {s u : State} (h : run n s = .next u) (hw : Memory.wf s.cfg = true) :
    Memory.wf u.cfg = true := by
  rwa [run_cfg h]

theorem resetEdge_wf {s : State} (hw : Memory.wf s.cfg = true) : Memory.wf s.resetEdge.cfg = true := hw

theorem placeCode_wf {s : State} (c : Code) (hw : Memory.wf s.cfg = true) : Memory.wf (s.placeCode c).cfg = true := hw

/-- The addresses of the reset instance's ROM: 0 to 95, each once. -/
theorem referenceRom_addresses : Config.referenceRom.map Prod.fst = List.range 96 := by
  simp only [Config.referenceRom, List.map_append, List.map_map, Function.comp_def]
  decide

theorem reset_wf : Memory.wf State.reset.cfg = true :=
  beq_iff_eq.2 referenceRom_addresses

/-- A ROM in canonical form holds a word exactly at the addresses below `3 * L`. -/
theorem romLookup_isSome_iff {c : Config} (hw : Memory.wf c = true) (a : Nat) :
    (romLookup c.rom a).isSome = true ↔ a < 3 * c.L := by
  have he : c.rom.map Prod.fst = List.range (3 * c.L) := beq_iff_eq.1 hw
  constructor
  · intro h
    by_contra hn
    rw [romLookup_none_of_not_mem (by rw [he, List.mem_range]; exact hn)] at h
    contradiction
  · intro h
    obtain ⟨w, hv⟩ := romLookup_some_of_mem (rom := c.rom) (a := a) (by rw [he, List.mem_range]; exact h)
    rw [hv]
    rfl

/-- Two ROMs in canonical form that read alike at every address are equal lists. -/
theorem rom_ext {c d : Config} (hL : c.L = d.L) (hc : Memory.wf c = true) (hd : Memory.wf d = true)
    (h : ∀ a, romLookup c.rom a = romLookup d.rom a) : c.rom = d.rom := by
  have key : ∀ (r r' : List RomCell), r.map Prod.fst = r'.map Prod.fst → (r.map Prod.fst).Nodup →
      (∀ a, a ∈ r.map Prod.fst → romLookup r a = romLookup r' a) → r = r' := by
    intro r
    induction r with
    | nil => intro r' he _ _; exact (List.map_eq_nil_iff.1 he.symm).symm
    | cons x xs ih =>
      intro r' he hn hh
      cases r' with
      | nil => simp at he
      | cons y ys =>
        obtain ⟨a, w⟩ := x
        obtain ⟨b, v⟩ := y
        simp only [List.map_cons, List.cons.injEq, List.nodup_cons] at he hn
        obtain ⟨rfl, he⟩ := he
        have h0 := hh a (by simp)
        simp only [romLookup, if_true, Option.some.injEq] at h0
        subst h0
        rw [ih ys he hn.2 (fun k hk => ?_)]
        have hka : a ≠ k := fun e => hn.1 (e ▸ hk)
        have := hh k (List.mem_cons_of_mem _ hk)
        simpa [romLookup, hka] using this
  have ec : c.rom.map Prod.fst = List.range (3 * c.L) := beq_iff_eq.1 hc
  have ed : d.rom.map Prod.fst = List.range (3 * d.L) := beq_iff_eq.1 hd
  exact key _ _ (by rw [ec, ed, hL]) (by rw [ec]; exact List.nodup_range) (fun a _ => h a)

end Sys2Proof.Machine
end

