-- ==== Sys2Proof/Laws/Silent.lean ====
section
/-! SUPPORT. A silent service, edge by edge (42_scheduler.md R143). -/

namespace Sys2Proof.Machine

/-- The scheduler's registers at each edge of a silent service; the engine's do not change. -/
structure SilentService (x : Nat → State) (s : State) : Prop where
  start : (x 1).ctl = { s.ctl with st := .assertCs, dbgQ := true } ∧ (x 1).ser = s.ser
  opened : (x 2).ctl = { s.ctl with st := .select, dbgQ := true, csNQ := false } ∧ (x 2).ser = s.ser
  skipped : (x 3).ctl = { s.ctl with st := .advance, dbgQ := true, csNQ := false } ∧ (x 3).ser = s.ser
  advanced : (x 4).ctl =
      { s.ctl with st := .deassertCs, dbgQ := true, csNQ := false, idx := (s.ctl.idx + 1) % s.cfg.L } ∧
    (x 4).ser = s.ser
  closed : (x 5).ctl = { s.ctl with st := .exit, dbgQ := true, csNQ := true, idx := (s.ctl.idx + 1) % s.cfg.L } ∧
    (x 5).ser = s.ser
  ended : (x 6).ctl = { s.ctl with st := .idle, dbgQ := false, csNQ := true, idx := (s.ctl.idx + 1) % s.cfg.L } ∧
    (x 6).ser = s.ser

/-- The path from a start edge, no word being shown at SELECT, is a silent service. -/
theorem silentService_path {f : State → Option Word} {s : State} (hi : s.ctl.idx < s.cfg.L) (hgo : s.go = true)
    (hb : s.ser.busy = false)
    (hf : ∀ u : State, u.cfg = s.cfg → u.ctl.st = .select → u.sync2 = s.captured → f u = none) :
    SilentService (path f s) s := by
  have hst : s.ctl.st = .idle := by
    by_contra h
    rw [go_false_of_ne_idle h] at hgo
    contradiction
  have h1 : (path f s 1).ctl = { s.ctl with st := .assertCs, dbgQ := true } ∧ (path f s 1).ser = s.ser := by
    rw [path_succ, edge_ctl, edge_ser]
    simp only [path_zero]
    rw [next_idle hst, hgo, serial_next_idle (by rw [hst]; rfl) (by unfold Scheduler.txStart; rw [hst]) hb]
    exact ⟨rfl, rfl⟩
  have h2 : (path f s 2).ctl = { s.ctl with st := .select, dbgQ := true, csNQ := false } ∧
      (path f s 2).ser = s.ser := by
    rw [path_succ, edge_ctl, edge_ser, h1.1, h1.2, next_assertCs rfl, serial_next_idle rfl rfl hb]
    exact ⟨rfl, rfl⟩
  have hmux : f (path f s 2) = none := hf _ (path_cfg _ _ _) (by rw [h2.1]) rfl
  have h3 : (path f s 3).ctl = { s.ctl with st := .advance, dbgQ := true, csNQ := false } ∧
      (path f s 3).ser = s.ser := by
    rw [path_succ, edge_ctl, edge_ser, h2.1, h2.2, hmux, next_select rfl, serial_next_idle rfl rfl hb]
    exact ⟨rfl, rfl⟩
  have h4 : (path f s 4).ctl =
        { s.ctl with st := .deassertCs, dbgQ := true, csNQ := false, idx := (s.ctl.idx + 1) % s.cfg.L } ∧
      (path f s 4).ser = s.ser := by
    rw [path_succ, edge_ctl, edge_ser, h3.1, h3.2, next_advance rfl, serial_next_idle rfl rfl hb, path_cfg,
      ← advanceIdx_eq_mod hi]
    exact ⟨rfl, rfl⟩
  have h5 : (path f s 5).ctl =
        { s.ctl with st := .exit, dbgQ := true, csNQ := true, idx := (s.ctl.idx + 1) % s.cfg.L } ∧
      (path f s 5).ser = s.ser := by
    rw [path_succ, edge_ctl, edge_ser, h4.1, h4.2, next_deassertCs rfl, serial_next_idle rfl rfl hb]
    exact ⟨rfl, rfl⟩
  have h6 : (path f s 6).ctl =
        { s.ctl with st := .idle, dbgQ := false, csNQ := true, idx := (s.ctl.idx + 1) % s.cfg.L } ∧
      (path f s 6).ser = s.ser := by
    rw [path_succ, edge_ctl, edge_ser, h5.1, h5.2, next_exit rfl, serial_next_idle rfl rfl hb]
    exact ⟨rfl, rfl⟩
  exact ⟨h1, h2, h3, h4, h5, h6⟩

end Sys2Proof.Machine
end

