-- ==== Sys2Proof/Machine/Script.lean ====
section
/-! DEFINITION. The tick script of 30_encoding.md R86 and R87, and the pin levels it stands for (log 14). -/

namespace Sys2Proof.Machine

/-- A line of a tick script (30_encoding.md R86), with the pseudo-lines of R87. -/
inductive ScriptLine where
  | reset
  | boot
  | tick (c : Code)
  | cycles (n : Nat)
  | play (t : Table)
  | silent
  | ticks (c : Code) (n : Nat)
deriving DecidableEq, Repr

/-- The code that selects a table under a map. -/
def codeOfTable (m : SelMap) : Table → Code
  | .t0 => m.code0
  | .t1 => m.code1
  | .t2 => m.code2

/-- A line with its pseudo-line expanded (30_encoding.md R87). -/
def ScriptLine.expand (m : SelMap) : ScriptLine → List ScriptLine
  | .play t => [.tick (codeOfTable m t)]
  | .silent => [.tick 0b0011#4]
  | .ticks c n => List.replicate n (.tick c)
  | l => [l]

/-- The pin levels of expanded lines, edge by edge, from the levels so far. `fresh` says no TICK line has come since the
last RESET: the first one also holds the one edge before its period (95_test_vectors.md section 0; log 14). -/
def scriptPins (P : Nat) : Pins → Bool → List ScriptLine → List Pins
  | _, _, [] => []
  | p, fresh, l :: rest =>
    match l with
    | .reset => { p with rst := true } :: scriptPins P { p with rst := false } true rest
    | .boot => scriptPins P { p with timerRun := true, tickIe := true, gie := true } fresh rest
    | .tick c =>
      List.replicate (P + if fresh then 1 else 0) { p with sel := c } ++ scriptPins P { p with sel := c } false rest
    | .cycles n => List.replicate n p ++ scriptPins P p fresh rest
    | _ => scriptPins P p fresh rest

/-- A state whose coming edges are those of a script (log 6, log 14). -/
def State.withScript (s : State) (lines : List ScriptLine) : State :=
  { s with env := scriptPins s.cfg.P (quietPins 0b0000#4) false (lines.flatMap (ScriptLine.expand s.cfg.selMap)) }

end Sys2Proof.Machine
end

