-- ==== Sys2Proof/Tests/Slice0.lean ====
section
/-! SUPPORT. Checks of our own work. Expected values are those of 95_test_vectors.md (its vector named at each test) or are
worked out by hand from the rule named; the `witness_` theorems show that the hypotheses of each obligation can be met. -/

namespace Sys2Proof.Tests

open Sys2Proof Sys2Proof.Machine

/-! ## The test instance of 95_test_vectors.md section 0 -/

/-- The test ROM's word at a flat address, for `L = 32`. -/
def testWord (a : Nat) : Word :=
  if a = 0 then 0x17FF#16
  else if a = 1 then 0x1972#16
  else if a < 32 then BitVec.ofNat 16 (0xA000 + a)
  else if a < 64 then BitVec.ofNat 16 (0xB100 + (a - 32))
  else BitVec.ofNat 16 (0xC200 + (a - 64))

/-- An instance with the reference map and the first `3 * L` words of the test ROM. -/
def testConfig (L P H : Nat) : Config where
  L := L
  P := P
  H := H
  fTick := 32000
  selMap := SelMap.reference
  rom := (List.range (3 * L)).map (fun a => (a, testWord a))

/-- Pins with the timer running, both enables at 1 and a code. -/
def onPins (c : Code) : Pins := { quietPins c with timerRun := true, tickIe := true, gie := true }

/-- A state of the block in phase `p`: index 5, `word_q` the source's first word, the engine as after reset. -/
def stateIn (p : Phase) : State where
  cfg := testConfig 32 43 1
  ctl := { st := p, dbgQ := decide (p ≠ .idle), csNQ := !p.frameOpen, idx := 5, wordQ := 0x17FF#16 }
  tmr := { tcnt := 20, tickPend := false, overrunQ := false }
  ser := Serial.reset
  sync1 := 0b0000#4
  sync2 := 0b0000#4
  env := List.replicate 44 (onPins 0b0000#4)
  draws := 0

/-- The same with a code in `sync2` and an index. -/
def selectState (c : Code) (idx : Nat) : State :=
  { stateIn .select with sync2 := c, ctl := { (stateIn .select).ctl with idx := idx } }

/-- An idle state whose service starts at the next edge, with code `c` on the pins, and a full count in the timer. -/
def startState (L P H idx : Nat) (c : Code) (n : Nat) : State where
  cfg := testConfig L P H
  ctl := { Scheduler.reset with idx := idx }
  tmr := { tcnt := P - 1, tickPend := true, overrunQ := false }
  ser := Serial.reset
  sync1 := 0b0000#4
  sync2 := 0b0000#4
  env := List.replicate n (onPins c)
  draws := 0

/-- A reset state of a small instance with `n` edges of one code to come. -/
def freshState (L P H : Nat) (c : Code) (n : Nat) : State :=
  { State.resetOf (testConfig L P H) with env := List.replicate n (onPins c) }

/-- A state inside a service, with two reset edges to come. -/
def resetPinsState : State :=
  { stateIn .txhWait with env := [{ onPins 0b0000#4 with rst := true }, { quietPins 0b1111#4 with rst := true }] }

/-- A state waiting for the engine, with the engine given. -/
def waitState (e : Serial) : State := { stateIn .txhWait with ser := e }

/-- A field of the next state, none at a stop. -/
def nextField {α : Type} (f : State → α) : Host.Outcome State Fault Refusal → Option α
  | .next t => some (f t)
  | _ => none

/-! ## WellFormed refuses ill-formed terms, one for each check -/

/-- A legal map that is not the reference one: table 2 has 0b0000. -/
def otherMap : SelMap := ⟨0b0100#4, 0b1111#4, 0b0000#4⟩

theorem test_referenceMapLegal : SelMap.reference.legal = true := by decide
theorem test_otherMapLegal : otherMap.legal = true := by decide
theorem test_mapRefused_code0_eq_code1 : (SelMap.mk 0b0000#4 0b0000#4 0b0010#4).legal = false := by decide
theorem test_mapRefused_code0_eq_code2 : (SelMap.mk 0b0000#4 0b0001#4 0b0000#4).legal = false := by decide
theorem test_mapRefused_code1_eq_code2 : (SelMap.mk 0b0000#4 0b0001#4 0b0001#4).legal = false := by decide
theorem test_mapRefused_zeroUndefined : (SelMap.mk 0b0100#4 0b0001#4 0b0010#4).legal = false := by decide
theorem test_mapRefused_threeIsTable0 : (SelMap.mk 0b0011#4 0b0000#4 0b0010#4).legal = false := by decide
theorem test_mapRefused_threeIsTable1 : (SelMap.mk 0b0000#4 0b0011#4 0b0010#4).legal = false := by decide
theorem test_mapRefused_threeIsTable2 : (SelMap.mk 0b0000#4 0b0001#4 0b0011#4).legal = false := by decide

theorem test_configLegal : (testConfig 2 43 1).legal = true := by decide
theorem test_configRefused_L : (testConfig 0 43 1).legal = false := by decide
theorem test_configRefused_P : (testConfig 2 0 1).legal = false := by decide
theorem test_configRefused_H : (testConfig 2 43 0).legal = false := by decide
theorem test_configRefused_fTick : ({ testConfig 2 43 1 with fTick := 0 }).legal = false := by decide
theorem test_configRefused_selMap :
    ({ testConfig 2 43 1 with selMap := ⟨0b0011#4, 0b0000#4, 0b0010#4⟩ }).legal = false := by decide
theorem test_configRefused_rom :
    ({ testConfig 2 43 1 with rom := (testConfig 2 43 1).rom.take 5 }).legal = false := by decide

theorem test_romWf : romWf 1 [(0, 0x17FF#16), (1, 0x1972#16), (2, 0#16)] = true := by decide
theorem test_romRefused_missing : romWf 1 [(0, 0x17FF#16), (1, 0x1972#16)] = false := by decide
theorem test_romRefused_order : romWf 1 [(1, 0x17FF#16), (0, 0x1972#16), (2, 0#16)] = false := by decide
theorem test_romRefused_twice : romWf 1 [(0, 0x17FF#16), (0, 0x1972#16), (2, 0#16)] = false := by decide
theorem test_romRefused_beyond : romWf 1 [(0, 0x17FF#16), (1, 0x1972#16), (2, 0#16), (3, 0#16)] = false := by decide

theorem test_instrWf : (Instr.svcNone 0b1111#4).wf SelMap.reference = true := by decide
theorem test_instrRefused_definedCode0 : (Instr.svcNone 0b0000#4).wf SelMap.reference = false := by decide
theorem test_instrRefused_definedCode1 : (Instr.svcNone 0b0001#4).wf SelMap.reference = false := by decide
theorem test_instrRefused_definedCode2 : (Instr.svcNone 0b0010#4).wf SelMap.reference = false := by decide
theorem test_instrRefused_illegalMap : Instr.svcT0.wf ⟨0b0011#4, 0b0000#4, 0b0010#4⟩ = false := by decide
theorem test_instrRefused_illegalMap1 : Instr.svcT1.wf ⟨0b0011#4, 0b0000#4, 0b0010#4⟩ = false := by decide
theorem test_instrRefused_illegalMap2 : Instr.svcT2.wf ⟨0b0011#4, 0b0000#4, 0b0010#4⟩ = false := by decide

/-! ## Decoding: words written out from 30_encoding.md R72, R74 and R80 (V-SEL) -/

theorem test_decode_svcT0 : decodeTableWord 8 0b00000000 = some .svcT0 := by decide
theorem test_decode_svcT1 : decodeTableWord 8 0b00000001 = some .svcT1 := by decide
theorem test_decode_svcT2 : decodeTableWord 8 0b00000010 = some .svcT2 := by decide
theorem test_decode_svcNone_row3 : decodeTableWord 8 0b00000011 = some (.svcNone 0b0011#4) := by decide
theorem test_decode_svcNone_row4 : decodeTableWord 8 0b00000111 = some (.svcNone 0b0111#4) := by decide
theorem test_decode_svcNone_row8 : decodeTableWord 8 0b00001000 = some (.svcNone 0b1000#4) := by decide
theorem test_decode_notACode : decodeTableWord 8 0b00010000 = none := by decide
theorem test_decode_tooShort : decodeTableWord 0 0 = none := by decide
theorem test_decode_rejectNames : decodeBits SelMap.reference 8 16 = .error .notACode ∧
    decodeBits SelMap.reference 3 0 = .error .tooShort := ⟨rfl, rfl⟩
theorem test_decode_otherMap : decode otherMap 0b0000#4 = .svcT2 ∧ decode otherMap 0b0001#4 = .svcNone 0b0001#4 := by
  decide
theorem test_encode : encode SelMap.reference .svcT1 = 0b0001#4 ∧ encode otherMap .svcT2 = 0b0000#4 := by decide

/-! ## One edge of each form -/

/-- V-ROM-1. -/
theorem test_svcT0_fetch : nextField (fun t => (t.ctl.wordQ, t.ctl.st)) (exec .svcT0 (selectState 0b0000#4 0)) =
    some (0x17FF#16, .txhLoad) := by decide
/-- V-ROM-2, through the step. -/
theorem test_svcT0_step : nextField (fun t => (t.ctl.wordQ, t.ctl.st)) (step (selectState 0b0000#4 1)) =
    some (0x1972#16, .txhLoad) := by decide
/-- V-ROM-3. -/
theorem test_svcT1_fetch : nextField (fun t => (t.ctl.wordQ, t.ctl.idx)) (step (selectState 0b0001#4 5)) =
    some (0xB105#16, 5) := by decide
/-- V-ROM-4: the last index. -/
theorem test_svcT2_fetch : nextField (fun t => (t.ctl.wordQ, t.ctl.st)) (step (selectState 0b0010#4 31)) =
    some (0xC21F#16, .txhLoad) := by decide
/-- V-ROM-5. -/
theorem test_svcNone_keepsWord : nextField (fun t => (t.ctl.wordQ, t.ctl.st)) (step (selectState 0b0011#4 7)) =
    some (0x17FF#16, .advance) := by decide
/-- V-ROM-6. -/
theorem test_svcNone_lastCode : nextField (fun t => (t.ctl.wordQ, t.ctl.st)) (step (selectState 0b1111#4 31)) =
    some (0x17FF#16, .advance) := by decide
/-- log 7: an index that is no index of the table. -/
theorem test_svcT1_noWord : exec .svcT1 (selectState 0b0001#4 32) = .fault .romNoWord := rfl

/-! ## The state after reset, and a placed word -/

/-- V-RST-1. -/
theorem test_reset_outputs : State.reset.outputs = ⟨false, true, false, false, false⟩ := rfl
/-- 40_waveform_rom.md R98: the two words the source gives. -/
theorem test_reset_rom : romRead State.reset.cfg .t0 0 = some 0x17FF#16 ∧
    romRead State.reset.cfg .t0 1 = some 0x1972#16 := ⟨rfl, rfl⟩
theorem test_placed_svcT0 : step (State.reset.withFetchWord 8 0) = exec .svcT0 (State.reset.withFetchWord 8 0) := rfl
theorem test_placed_svcNone :
    step (State.reset.withFetchWord 8 9) = exec (.svcNone 0b1001#4) (State.reset.withFetchWord 8 9) := rfl
theorem test_placed_word : nextField (fun t => t.ctl.wordQ) (step (State.reset.withFetchWord 8 0)) =
    some 0x17FF#16 := rfl

/-! ## Operands and flags -/

/-- V-SPLIT. -/
theorem test_split : hiByte 0x17FF#16 = 0x17#8 ∧ loByte 0x17FF#16 = 0xFF#8 ∧ hiByte 0x2000#16 = 0x20#8 ∧
    loByte 0x8001#16 = 0x01#8 := by decide
/-- V-IDX-1 to V-IDX-7. -/
theorem test_advanceIdx : [(32, 0), (32, 30), (32, 31), (5, 4), (5, 3), (1, 0), (33, 32)].map
    (fun p => advanceIdx p.1 p.2) = [1, 31, 0, 0, 4, 0, 0] := by decide
/-- V-IDX, the column `IDX_W`. -/
theorem test_idxWidth : [32, 5, 1, 33].map counterWidth = [5, 3, 1, 6] := by decide
/-- 10_state.md R21, by hand: `IDX_W` = 5 at L = 32, `TCNT_W` = 6 at P = 43, the divider 1 bit at H = 1 and 2 at H = 3. -/
theorem test_registerWidths : (idxWidth (testConfig 32 43 1), tcntWidth (testConfig 32 43 1),
    divcntWidth (testConfig 32 43 1), divcntWidth (testConfig 32 43 3)) = (5, 6, 1, 2) := by decide
/-- 10_state.md R21: a count one beyond its width is no value of the register. -/
theorem test_fits_refuses : (stateIn .idle).fits ∧ ¬ ({ stateIn .idle with tmr := ⟨64, false, false⟩ } : State).fits := by
  decide
/-- 30_encoding.md R75: table 2, index 31 at `L = 32` is 0b10_11111. -/
theorem test_romAddr : romAddr 32 .t2 31 = 0b1011111 := by decide
/-- V-RST-3 and V-OVR-2 in small: a reset edge clears a pending tick and an overrun. -/
theorem test_resetEdge : nextField (fun t => (t.tmr.tickPend, t.tmr.overrunQ, t.tmr.tcnt))
    (step { resetPinsState with tmr := ⟨0, true, true⟩ }) = some (false, false, 42) := by decide
/-- V-OVR-4: a start and an expiry at the same edge. -/
theorem test_overrun_sameEdge : nextField (fun t => (t.ctl.st, t.tmr.tickPend, t.tmr.overrunQ))
    (step { startState 32 43 1 0 0b0000#4 1 with tmr := ⟨0, true, false⟩ }) = some (.assertCs, true, true) := by decide
/-- V-OVR-1: an expiry at the EXIT edge. -/
theorem test_overrun_exit : nextField (fun t => (t.ctl.st, t.tmr.tickPend, t.tmr.overrunQ))
    (step { stateIn .exit with tmr := ⟨0, false, false⟩ }) = some (.idle, true, true) := by decide
/-- V-TMR-2: `tcnt = 2` holds at edge 7, where `timer_run = 0`. -/
theorem test_timer_frozen : nextField (fun t => t.tmr.tcnt)
    (step { stateIn .idle with tmr := ⟨2, false, false⟩, env := [quietPins 0b0000#4] }) = some 2 := by decide
/-- V-SYNC: the code at the pins goes to `sync1`, the code in `sync1` to `sync2`. -/
theorem test_sync : nextField (fun t => (t.sync1, t.sync2))
    (step { stateIn .idle with sync1 := 0b0011#4, env := [quietPins 0b1010#4] }) = some (0b1010#4, 0b0011#4) := by decide
/-- 93_implementation_defined.md U4: for 0b0000 to 0b0011 the settled upper bits stay, whatever is drawn. -/
theorem test_sync_unsettled : ∀ d : Code, captureSel { quietPins 0b0011#4 with unsettled := 0b0011#4 } d ∈
    [0b0000#4, 0b0001#4, 0b0010#4, 0b0011#4] := by decide

/-! ## The serial engine (V-SER-5, V-SER-6) -/

theorem test_ser_start : Serial.start 2 0x17#8 = ⟨true, 0x17#8, 0, 1, false, false⟩ := by decide
/-- V-SER-5, edge 80. -/
theorem test_ser_rise : Serial.shift 2 ⟨true, 0x17#8, 0, 0, false, false⟩ = ⟨true, 0x17#8, 0, 1, true, false⟩ := by decide
/-- V-SER-5, edge 90. -/
theorem test_ser_fall : Serial.shift 2 ⟨true, 0x5C#8, 2, 0, true, false⟩ = ⟨true, 0xB8#8, 3, 1, false, true⟩ := by decide
/-- V-SER-6, for `d = 0xFF`. -/
theorem test_ser_last : Serial.shift 1 ⟨true, 0x80#8, 7, 0, true, true⟩ = ⟨false, 0x80#8, 7, 0, false, true⟩ := by decide
/-- 43_serial_tx.md R168. -/
theorem test_ser_illegal : Serial.next 2 { Scheduler.reset with st := .illegal 5 } ⟨true, 0x5C#8, 2, 1, true, true⟩ =
    ⟨false, 0x00#8, 0, 0, false, true⟩ := by decide

/-! ## The frame log and the tick script -/

/-- 43_serial_tx.md R176, by hand: open, one bit 1, close; then a frame with no bit. -/
theorem test_frameLog : frameLogFrom .empty
    [⟨true, true, false, false, false⟩, ⟨true, false, false, true, false⟩, ⟨true, false, true, true, false⟩,
     ⟨true, false, false, true, false⟩, ⟨true, true, false, true, false⟩, ⟨true, false, false, true, false⟩,
     ⟨true, true, false, true, false⟩] = ⟨[[true], []], none⟩ := by decide
/-- V-SPLIT and V-SER-3 as frame bits. -/
theorem test_frameBytes : frameBytes (wordBits 0xA5C3#16) = [0xA5#8, 0xC3#8] ∧
    byteBits 0xA5#8 = [true, false, true, false, false, true, false, true] := by decide
/-- 95_test_vectors.md section 0 at `P = 2`: edges 0 to 2 hold the first code, edges 3 and 4 the second. -/
theorem test_script : ((State.resetOf (testConfig 1 2 1)).withScript [.reset, .boot, .play .t0, .silent]).env =
    { quietPins 0b0000#4 with rst := true } ::
      (List.replicate 3 (onPins 0b0000#4) ++ List.replicate 2 (onPins 0b0011#4)) := by decide

/-! ## Witnesses: states and operands that meet each obligation's hypotheses -/

theorem witness_ResetEdgeWritesEveryRegister : resetPinsState.pins.rst = true := by decide
theorem witness_ResetPinsAreQuiet : resetPinsState.pins.rst = true := by decide
theorem witness_HeldResetKeepsResetState : 0 < 2 ∧ ∀ k, k < 2 → (resetPinsState.pinsAt k).rst = true := by decide
theorem witness_ResetMeetsInvariant : (testConfig 1 1 1).legal = true := by decide

/-- Both kinds of edge, a reset edge and one of a form. -/
theorem witness_EveryStepKeepsInvariant :
    ((stateIn .advance).Inv ∧ ∃ t, step (stateIn .advance) = .next t) ∧
    (resetPinsState.Inv ∧ ∃ t, step resetPinsState = .next t) :=
  ⟨⟨by decide, _, rfl⟩, by decide, _, rfl⟩

/-- The index at the top of its width, beyond `L`; the invariant; the width 1 at its boundary. -/
theorem witness_EveryStepKeepsRegisterWidths :
    (({ startState 5 43 1 7 0b0000#4 1 with ctl := ⟨.advance, true, false, 7, 0#16⟩ } : State).fits ∧
      ∃ t, step { startState 5 43 1 7 0b0000#4 1 with ctl := ⟨.advance, true, false, 7, 0#16⟩ } = .next t) ∧
    (stateIn .advance).Inv ∧ 1 ≤ 1 ∧ 2 ≤ 2 ^ 1 :=
  ⟨⟨by decide, _, rfl⟩, by decide, by decide, by decide⟩

theorem witness_EveryRunFromResetKeepsInvariant :
    (freshState 1 1 1 0b0000#4 3).cfg.legal = true ∧ (freshState 1 1 1 0b0000#4 3).atReset := by decide
/-- The last index, at SELECT. -/
theorem witness_NoCodeWordOrIndexTraps : (selectState 0b0010#4 31).cfg.legal = true ∧
    (selectState 0b0010#4 31).ctl.idx < (selectState 0b0010#4 31).cfg.L := by decide
/-- The first index that is none of the table's. -/
theorem witness_DataFormStopsWhereRomHasNoWord : Instr.svcT2.table = some .t2 ∧
    (selectState 0b0010#4 32).ctl.st = .select ∧
    romRead (selectState 0b0010#4 32).cfg .t2 (selectState 0b0010#4 32).ctl.idx = none := by decide

theorem witness_DecodeOfEncodeGivesFormBack : Instr.svcT0.wf otherMap = true ∧ Instr.svcT1.wf otherMap = true ∧
    Instr.svcT2.wf otherMap = true ∧ (Instr.svcNone 0b0011#4).wf otherMap = true := by decide
theorem witness_EveryCodeSelectsExactlyOneForm : otherMap.legal = true ∧
    (Instr.svcNone 0b0001#4).wf otherMap = true ∧ encode otherMap (.svcNone 0b0001#4) = 0b0001#4 := by decide
theorem witness_UndefinedCodesSelectTheSilentForm : otherMap.legal = true ∧
    otherMap.table 0b1110#4 = none ∧ otherMap.table 0b1111#4 = some .t1 := by decide
theorem witness_RomAddressIsTableAndIndex : 31 < 32 ∧ 0 < 5 ∧ 4 < 5 ∧ romAddr 5 .t1 4 = romAddr 5 .t1 4 := by decide
/-- Both clauses, at the last index and the first beyond it. -/
theorem witness_RomHoldsOneWordPerTableAndIndex : (testConfig 2 43 1).legal = true ∧
    1 < (testConfig 2 43 1).L ∧ (testConfig 2 43 1).L ≤ 2 := by decide
theorem witness_RomIsNeverWritten : ∃ u, run 2 resetPinsState = .next u := ⟨_, rfl⟩

/-- Both clauses, at the words 0 and 15. -/
theorem witness_StepRunsTheDecodedForm : (stateIn .idle).pins.rst = false ∧ 0 < 16 ∧ 15 < 16 := by decide

/-- SELECT with a defined and with an undefined code; a state that is not SELECT; two edges without reset. -/
theorem witness_SelectReadsTheCode :
    ((selectState 0b0010#4 31).cfg.legal = true ∧
      (selectState 0b0010#4 31).ctl.idx < (selectState 0b0010#4 31).cfg.L ∧
      (selectState 0b0010#4 31).ctl.st = .select ∧ (selectState 0b0010#4 31).pins.rst = false ∧
      (selectState 0b0010#4 31).cfg.selMap.table 0b0010#4 = some .t2) ∧
    ((selectState 0b0011#4 0).cfg.legal = true ∧
      (selectState 0b0011#4 0).ctl.idx < (selectState 0b0011#4 0).cfg.L ∧
      (selectState 0b0011#4 0).ctl.st = .select ∧ (selectState 0b0011#4 0).pins.rst = false ∧
      (selectState 0b0011#4 0).cfg.selMap.table 0b0011#4 = none) ∧
    (stateIn .txhLoad).ctl.st ≠ .select ∧
    ((stateIn .idle).noReset 2 ∧ ∃ u, run 2 (stateIn .idle) = .next u) :=
  ⟨by decide, by decide, by decide, by decide, _, rfl⟩

/-- Every row of the table, SELECT with either kind of form. -/
theorem witness_NextStateTable :
    (∀ p ∈ [Phase.idle, .assertCs, .select, .txhLoad, .txhWait, .txlLoad, .txlWait, .advance, .deassertCs, .exit,
        .illegal 0, .illegal 5], (stateIn p).ctl.st = p ∧
      (nextField (fun _ => true) (exec .svcT0 (stateIn p))).isSome = true ∧
      (nextField (fun _ => true) (exec (.svcNone 0b0011#4) (stateIn p))).isSome = true) := by decide

/-- Every clause: IDLE with and without the start condition, EXIT, ASSERT_CS, DEASSERT_CS and an illegal state. -/
theorem witness_OnlyWritesOfStrobeAndChipSelect :
    ∀ p ∈ [Phase.idle, .exit, .assertCs, .deassertCs, .illegal 0, .advance], (stateIn p).pins.rst = false ∧
      (nextField (fun _ => true) (step (stateIn p))).isSome = true := by decide
theorem witness_OnlyWritesOfStrobeAndChipSelect_start : (startState 1 1 1 0 0b0000#4 1).pins.rst = false ∧
    (startState 1 1 1 0 0b0000#4 1).go = true ∧ ∃ u, step (startState 1 1 1 0 0b0000#4 1) = .next u :=
  ⟨by decide, by decide, _, rfl⟩

/-- Both clauses. -/
theorem witness_OnlyAdvanceAndResetWriteIndex :
    ((∃ u, step (stateIn .deassertCs) = .next u) ∧ (stateIn .deassertCs).pins.rst = false ∧
      (stateIn .deassertCs).ctl.st ≠ .advance) ∧
    ((∃ u, step resetPinsState = .next u) ∧ resetPinsState.pins.rst = true) :=
  ⟨⟨⟨_, rfl⟩, by decide, by decide⟩, ⟨_, rfl⟩, by decide⟩

/-- Each flag clear and each flag set. -/
theorem witness_FlagsAreWrittenAsListed :
    ∀ s ∈ [stateIn .idle, startState 1 1 1 0 0b0000#4 1, { stateIn .exit with tmr := ⟨0, false, true⟩ },
        stateIn .txhLoad, waitState ⟨true, 0x80#8, 7#3, 0, true, true⟩],
      s.pins.rst = false ∧ s.ctl.st.isIllegal = false ∧ (nextField (fun _ => true) (step s)).isSome = true := by decide

theorem witness_PendingEnabledTickEntersService : (startState 1 1 1 0 0b0000#4 1).ctl.st = .idle ∧
    (startState 1 1 1 0 0b0000#4 1).ser.busy = false ∧ (startState 1 1 1 0 0b0000#4 1).tmr.tickPend = true ∧
    (startState 1 1 1 0 0b0000#4 1).pins.tickIe = true ∧ (startState 1 1 1 0 0b0000#4 1).pins.gie = true := by decide

/-- Each of the three ways the start condition fails, two of them with a tick pending. -/
theorem witness_IdleHoldsWithoutStartCondition :
    ((stateIn .idle).ctl.st = .idle ∧ (stateIn .idle).ser.busy = false ∧ (stateIn .idle).tmr.tickPend = false) ∧
    (∀ s ∈ [{ stateIn .idle with tmr := ⟨20, true, false⟩, env := [{ onPins 0b0000#4 with tickIe := false }] },
        { stateIn .idle with tmr := ⟨20, true, false⟩, env := [{ onPins 0b0000#4 with gie := false }] }],
      s.ctl.st = .idle ∧ s.ser.busy = false ∧ s.tmr.tickPend = true ∧
      (s.pins.tickIe = false ∨ s.pins.gie = false)) := by decide

theorem witness_AssertCsOpensFrame : (stateIn .assertCs).ctl.st = .assertCs ∧ (stateIn .assertCs).ser.busy = false := by
  decide
/-- Each data form, at the first and the last index; a state other than SELECT. -/
theorem witness_DataFormsFetchAtSelect :
    (Instr.svcT0.table = some .t0 ∧ Instr.svcT1.table = some .t1 ∧ Instr.svcT2.table = some .t2) ∧
    (∀ n ∈ [0, 31], (selectState 0b0000#4 n).cfg.legal = true ∧
      (selectState 0b0000#4 n).ctl.idx < (selectState 0b0000#4 n).cfg.L ∧
      (selectState 0b0000#4 n).ctl.st = .select ∧ (selectState 0b0000#4 n).ser.busy = false) ∧
    ((stateIn .advance).ctl.st ≠ .select ∧
      (nextField (fun _ => true) (exec .svcT0 (stateIn .advance))).isSome = true) := by decide
theorem witness_SilentFormSkipsTheFetch : (selectState 0b1111#4 0).ctl.st = .select ∧
    (selectState 0b1111#4 0).ser.busy = false := by decide
theorem witness_TxhLoadStartsHighByte : (stateIn .txhLoad).ctl.st = .txhLoad ∧ (stateIn .txhLoad).Inv := by decide
theorem witness_TxlLoadStartsLowByte : (stateIn .txlLoad).ctl.st = .txlLoad := by decide
/-- Both WAIT states, busy and not. -/
theorem witness_WaitStatesWaitForTheEngine :
    ((waitState ⟨true, 0x17#8, 0#3, 0, false, false⟩).ctl.st = .txhWait ∧
      (waitState ⟨true, 0x17#8, 0#3, 0, false, false⟩).ser.busy = true) ∧
    ((stateIn .txlWait).ctl.st = .txlWait ∧ (stateIn .txlWait).ser.busy = false) := by decide
/-- Index 0 and index `L - 1`; the two states that lead to ADVANCE. -/
theorem witness_AdvanceMovesIndexModuloL :
    (∀ n ∈ [0, 31], (({ stateIn .advance with ctl := { (stateIn .advance).ctl with idx := n } } : State).ctl.st = .advance ∧
      (stateIn .advance).ser.busy = false ∧ n < (stateIn .advance).cfg.L)) ∧
    ((stateIn .txlWait).ctl.st = .txlWait ∧ (stateIn .txlWait).ser.busy = false) ∧
    (stateIn .select).ctl.st = .select := by decide
theorem witness_DeassertCsClosesFrame : (stateIn .deassertCs).ctl.st = .deassertCs ∧
    (stateIn .deassertCs).ser.busy = false := by decide
/-- The last clause too: an expiry at the EXIT edge, both enables at 1 at the next. -/
theorem witness_ExitEndsService : ∃ u, exec .svcT0 { stateIn .exit with tmr := ⟨0, false, false⟩ } = .next u ∧
    (stateIn .exit).ctl.st = .exit ∧ (stateIn .exit).ser.busy = false ∧
    u.tmr.tickPend = true ∧ u.pins.tickIe = true ∧ u.pins.gie = true :=
  ⟨_, rfl, by decide, by decide, by decide, by decide, by decide⟩
/-- The first and the last illegal code. -/
theorem witness_IllegalStateRecovers : (stateIn (.illegal 0)).ctl.st = .illegal 0 ∧
    (stateIn (.illegal 5)).ctl.st = .illegal 5 := by decide

theorem witness_IdleEngineHolds : (stateIn .select).pins.rst = false ∧ (stateIn .select).ctl.st.isIllegal = false ∧
    (stateIn .select).ser.busy = false ∧ (stateIn .select).ctl.st ≠ .txhLoad ∧ (stateIn .select).ctl.st ≠ .txlLoad ∧
    (stateIn .select).Inv ∧ ∃ u, step (stateIn .select) = .next u :=
  ⟨by decide, by decide, by decide, by decide, by decide, by decide, _, rfl⟩
/-- The divider at 1, the least value above 0. -/
theorem witness_DividerCountsDown :
    ∃ u, step (waitState ⟨true, 0x17#8, 0#3, 1, false, false⟩) = .next u ∧
    (waitState ⟨true, 0x17#8, 0#3, 1, false, false⟩).pins.rst = false ∧
    (stateIn .txhWait).ctl.st.isIllegal = false ∧ (stateIn .txhWait).ctl.st ≠ .txhLoad ∧
    (stateIn .txhWait).ctl.st ≠ .txlLoad ∧ 0 < 1 :=
  ⟨_, rfl, by decide, by decide, by decide, by decide, by decide⟩
/-- Each clause: rising, falling after bits 0 and 6, falling after the last bit. -/
theorem witness_SerialClockToggles :
    ∀ e ∈ [(⟨true, 0x17#8, 0#3, 0, false, false⟩ : Serial), ⟨true, 0x17#8, 0#3, 0, true, false⟩,
        ⟨true, 0xC0#8, 6#3, 0, true, true⟩, ⟨true, 0x80#8, 7#3, 0, true, true⟩],
      (waitState e).pins.rst = false ∧ (waitState e).ctl.st.isIllegal = false ∧ (waitState e).ser.busy = true ∧
      (waitState e).ctl.st ≠ .txhLoad ∧ (waitState e).ctl.st ≠ .txlLoad ∧ (waitState e).ser.divcnt = 0 ∧
      (nextField (fun _ => true) (step (waitState e))).isSome = true := by decide
/-- Both states that start a byte, and both ends of the range. -/
theorem witness_ByteTakesSixteenHalfPeriods :
    (1 ≤ (stateIn .txhLoad).cfg.H ∧ (stateIn .txhLoad).noReset (16 * (stateIn .txhLoad).cfg.H + 1) ∧
      (stateIn .txhLoad).ctl.st = .txhLoad ∧ 0x17#8 = hiByte (stateIn .txhLoad).ctl.wordQ ∧
      16 ≤ 16 * (stateIn .txhLoad).cfg.H) ∧
    (1 ≤ (stateIn .txlLoad).cfg.H ∧ (stateIn .txlLoad).noReset (16 * (stateIn .txlLoad).cfg.H + 1) ∧
      (stateIn .txlLoad).ctl.st = .txlLoad ∧ 0xFF#8 = loByte (stateIn .txlLoad).ctl.wordQ ∧
      0 ≤ 16 * (stateIn .txlLoad).cfg.H) := by decide

/-- Each clause: frozen, at 0, above 0. -/
theorem witness_TimerCountsDownAndReloads :
    ∀ s ∈ [{ stateIn .idle with env := [quietPins 0b0000#4] }, { stateIn .idle with tmr := ⟨0, false, false⟩ },
        { stateIn .idle with tmr := ⟨1, false, false⟩ }],
      s.pins.rst = false ∧ (nextField (fun _ => true) (step s)).isSome = true := by decide
/-- At `P = 3`, past the first expiry. -/
theorem witness_TimerExpiresEveryPEdges : (freshState 1 3 1 0b0000#4 7).Inv ∧
    (freshState 1 3 1 0b0000#4 7).tmr.tcnt = (freshState 1 3 1 0b0000#4 7).cfg.P - 1 ∧
    (∀ k, k < 7 → ((freshState 1 3 1 0b0000#4 7).pinsAt k).rst = false ∧
      ((freshState 1 3 1 0b0000#4 7).pinsAt k).timerRun = true) ∧ 5 < 7 := by decide
theorem witness_MaskedTickStaysPending :
    ∀ s ∈ [({ startState 1 1 1 0 0b0000#4 0 with env := List.replicate 2 { onPins 0b0000#4 with gie := false } } : State)],
      s.Inv ∧ s.ctl.st = .idle ∧ s.tmr.tickPend = true ∧ s.noReset 2 ∧
      (∀ k, k < 2 → (s.pinsAt k).tickIe = false ∨ (s.pinsAt k).gie = false) := by decide
/-- Both clauses. -/
theorem witness_OverrunIsStickyAndPassive :
    (({ stateIn .exit with tmr := ⟨20, false, true⟩ } : State).tmr.overrunQ = true ∧
      ({ stateIn .exit with tmr := ⟨20, false, true⟩ } : State).noReset 2 ∧
      ∃ u, run 2 { stateIn .exit with tmr := ⟨20, false, true⟩ } = .next u) ∧
    ((stateIn .exit).pins.rst = false ∧ ∃ u, step (stateIn .exit) = .next u) :=
  ⟨⟨by decide, by decide, _, rfl⟩, by decide, _, rfl⟩
theorem witness_ExpiryAtStartEdgeOverruns : (startState 1 1 1 0 0b0000#4 1).pins.rst = false ∧
    (startState 1 1 1 0 0b0000#4 1).go = true ∧ (startState 1 1 1 0 0b0000#4 1).expire = true := by decide
theorem witness_ExpiryAtExitOverrunsAndIsServedNext :
    ∀ s ∈ [{ stateIn .exit with tmr := ⟨0, false, false⟩ }], s.noReset 2 ∧ s.ctl.st = .exit ∧ s.expire = true ∧
      (s.pinsAt 1).tickIe = true ∧ (s.pinsAt 1).gie = true := by decide
/-- Settled bits 0 and 3 beside an unsettled one, and all bits settled. -/
theorem witness_SynchronizerCapturesSettledBits :
    (∃ u, step { stateIn .idle with env := [{ quietPins 0b1010#4 with unsettled := 0b0010#4 }] } = .next u) ∧
    (∃ u, step (stateIn .idle) = .next u) ∧ (stateIn .idle).pins.rst = false ∧
    (stateIn .idle).pins.unsettled = 0b0000#4 ∧ (0b0010#4).getLsbD 0 = false ∧ (0b0010#4).getLsbD 3 = false :=
  ⟨⟨_, rfl⟩, ⟨_, rfl⟩, by decide, by decide, by decide, by decide⟩

/-- Each data form at the last index; the edges 3, 5 + 16H and 9 + 32H are among those spoken of. -/
theorem witness_DataServiceTimeline : (Instr.svcT0.table = some .t0 ∧ Instr.svcT1.table = some .t1 ∧
      Instr.svcT2.table = some .t2) ∧
    (startState 2 43 1 1 0b0000#4 42).Inv ∧ (startState 2 43 1 1 0b0000#4 42).go = true ∧
    (startState 2 43 1 1 0b0000#4 42).cfg.H = 1 ∧ 3 ≤ 9 + 32 * 1 ∧ 5 + 16 * 1 ≤ 9 + 32 * 1 := by decide
theorem witness_SilentServiceTimeline : (startState 2 43 1 1 0b0011#4 6).Inv ∧
    (startState 2 43 1 1 0b0011#4 6).go = true := by decide
/-- A defined code and an undefined one. -/
theorem witness_ServiceRunsTheCodeOfItsStartEdge :
    ((startState 2 43 1 1 0b0001#4 42).Inv ∧ (startState 2 43 1 1 0b0001#4 42).go = true ∧
      (startState 2 43 1 1 0b0001#4 42).cfg.selMap.table (startState 2 43 1 1 0b0001#4 42).captured = some .t1 ∧
      (startState 2 43 1 1 0b0001#4 42).noReset 42) ∧
    ((startState 2 43 1 1 0b0011#4 6).Inv ∧ (startState 2 43 1 1 0b0011#4 6).go = true ∧
      (startState 2 43 1 1 0b0011#4 6).cfg.selMap.table (startState 2 43 1 1 0b0011#4 6).captured = none ∧
      (startState 2 43 1 1 0b0011#4 6).noReset 6) := by decide
theorem test_sourceWords (L P H : Nat) (hL : L = 2) : sourceWords (testConfig L P H) := by
  subst hL
  intro t ht
  cases t
  · exact ⟨rfl, fun _ => rfl⟩
  · exact absurd ht (by show ¬ (some Table.t0 = some Table.t1); simp)
  · exact absurd ht (by show ¬ (some Table.t0 = some Table.t2); simp)
/-- Index 0 and index 1. -/
theorem witness_SourceScenarioBytes :
    ∀ n ∈ [0, 1], (startState 2 43 1 n 0b0000#4 42).Inv ∧ sourceWords (startState 2 43 1 n 0b0000#4 42).cfg ∧
      (startState 2 43 1 n 0b0000#4 42).go = true ∧ (startState 2 43 1 n 0b0000#4 42).captured = 0b0000#4 ∧
      (startState 2 43 1 n 0b0000#4 42).noReset (10 + 32 * (startState 2 43 1 n 0b0000#4 42).cfg.H) ∧
      (startState 2 43 1 n 0b0000#4 42).ctl.idx = n := by
  intro n hn
  have h : (startState 2 43 1 n 0b0000#4 42).Inv ∧ (startState 2 43 1 n 0b0000#4 42).go = true ∧
      (startState 2 43 1 n 0b0000#4 42).captured = 0b0000#4 ∧
      (startState 2 43 1 n 0b0000#4 42).noReset (10 + 32 * (startState 2 43 1 n 0b0000#4 42).cfg.H) := by
    revert n hn
    decide
  exact ⟨h.1, test_sourceWords 2 43 1 rfl, h.2.1, h.2.2.1, h.2.2.2, rfl⟩
theorem witness_EveryServiceAdvancesOnce : (startState 2 43 1 1 0b0000#4 42).Inv ∧
    (startState 2 43 1 1 0b0000#4 42).go = true ∧
    (startState 2 43 1 1 0b0000#4 42).noReset (10 + 32 * (startState 2 43 1 1 0b0000#4 42).cfg.H) := by decide
/-- Both clauses. -/
theorem witness_ServicesDoNotNest :
    ((startState 1 1 1 0 0b0000#4 1).pins.rst = false ∧ (startState 1 1 1 0 0b0000#4 1).ctl.st.isIllegal = false ∧
      nextField (fun u => u.ctl.st) (step (startState 1 1 1 0 0b0000#4 1)) = some .assertCs) ∧
    ((stateIn .exit).pins.rst = false ∧ (stateIn .exit).ctl.st.isIllegal = false ∧
      nextField (fun u => u.ctl.st) (step (stateIn .exit)) = some .idle) := by decide
/-- From ASSERT_CS to TXH_LOAD, the other machine with every pin but `rst` different. -/
theorem witness_RunningServiceIgnoresPins :
    (stateIn .assertCs).sync1 = ({ stateIn .assertCs with env := List.replicate 2 (quietPins 0b1111#4) } : State).sync1 ∧
    (stateIn .assertCs).noReset 2 ∧
    ({ stateIn .assertCs with env := List.replicate 2 (quietPins 0b1111#4) } : State).noReset 2 ∧
    nextField (fun v => v.ctl.st) (run 1 (stateIn .assertCs)) = some .select ∧
    (∃ u, run 2 (stateIn .assertCs) = .next u) :=
  ⟨by decide, by decide, by decide, by decide, _, rfl⟩

/-- A whole silent service from reset (V-SVC-3 at `P = 7`, thirteen edges). -/
theorem witness_FrameLogIsTheServicesInOrder : (freshState 1 7 1 0b0011#4 13).cfg.legal = true ∧
    (freshState 1 7 1 0b0011#4 13).atReset ∧ (freshState 1 7 1 0b0011#4 13).noReset 13 := by decide
theorem witness_IndexCountsCompletedServices : (freshState 2 7 1 0b0011#4 13).cfg.legal = true ∧
    (freshState 2 7 1 0b0011#4 13).atReset ∧ (freshState 2 7 1 0b0011#4 13).noReset 13 ∧
    nextField (fun u => (u.ctl.st, u.ctl.idx)) (run 13 (freshState 2 7 1 0b0011#4 13)) = some (.idle, 1) := by decide
/-- Both clauses: a service running, and a quiet idle state. -/
theorem witness_IndexCountsExpiriesWithoutOverrun : (freshState 2 7 1 0b0011#4 13).cfg.legal = true ∧
    (freshState 2 7 1 0b0011#4 13).atReset ∧ (freshState 2 7 1 0b0011#4 13).noReset 13 ∧
    nextField (fun u => (u.faulted, u.ctl.st)) (run 9 (freshState 2 7 1 0b0011#4 13)) = some (false, .select) ∧
    nextField (fun u => (u.faulted, u.ctl.st, u.tmr.tickPend)) (run 13 (freshState 2 7 1 0b0011#4 13)) =
      some (false, .idle, false) := by decide
/-- The least conformant period. -/
theorem witness_ConformantInstanceNeverOverruns : (freshState 2 43 1 0b0000#4 44).cfg.legal = true ∧
    conformant (freshState 2 43 1 0b0000#4 44).cfg ∧ (freshState 2 43 1 0b0000#4 44).atReset ∧
    (freshState 2 43 1 0b0000#4 44).noReset 44 ∧
    (∀ k, k < 44 → ((freshState 2 43 1 0b0000#4 44).pinsAt k).tickIe = true ∧
      ((freshState 2 43 1 0b0000#4 44).pinsAt k).gie = true) := by decide
/-- V-OVR-1, its service 0. -/
theorem witness_EnvelopeBoundIsTight : (startState 2 42 1 0 0b0000#4 42).Inv ∧
    (startState 2 42 1 0 0b0000#4 42).cfg.P = 10 + 32 * (startState 2 42 1 0 0b0000#4 42).cfg.H ∧
    (startState 2 42 1 0 0b0000#4 42).go = true ∧
    (startState 2 42 1 0 0b0000#4 42).tmr.tcnt = (startState 2 42 1 0 0b0000#4 42).cfg.P - 1 ∧
    (startState 2 42 1 0 0b0000#4 42).cfg.selMap.table (startState 2 42 1 0 0b0000#4 42).captured = some .t0 ∧
    (∀ k, k < 10 + 32 * (startState 2 42 1 0 0b0000#4 42).cfg.H →
      ((startState 2 42 1 0 0b0000#4 42).pinsAt k).rst = false ∧
      ((startState 2 42 1 0 0b0000#4 42).pinsAt k).timerRun = true) := by decide

end Sys2Proof.Tests
end

/-! # The registers of the block: what every edge keeps (10_state.md R21, R28, R32)

The invariant is cut into the part of each group of registers, and each part is shown kept by the operation that writes
the group; the statements about whole states and runs are assembled from these. -/

namespace Sys2Proof.Machine

/-! ## The invariant by groups of registers -/

/-- The items of 10_state.md R32 about the registers the state machine writes. -/
def Scheduler.Ok (L : Nat) (c : Scheduler) : Prop :=
  c.st.isIllegal = false ∧ c.idx < L ∧ (c.dbgQ = true ↔ c.st ≠ .idle) ∧ (c.csNQ = false ↔ c.st.frameOpen = true)

/-- The items of 10_state.md R32 about the engine's registers, in service state `p`. -/
def Serial.Ok (H : Nat) (p : Phase) (e : Serial) : Prop :=
  e.divcnt < H ∧ (e.busy = true → p.waits = true) ∧ (e.sclkQ = true → e.busy = true)

/-- The invariant is that of the parameters and of the three groups of registers. -/
theorem inv_iff (s : State) :
    s.Inv ↔ s.cfg.legal = true ∧ s.ctl.Ok s.cfg.L ∧ s.tmr.tcnt < s.cfg.P ∧ s.ser.Ok s.cfg.H s.ctl.st := by
  unfold Scheduler.Ok Serial.Ok
  tauto

/-! ## The state machine -/

theorem advanceIdx_lt_of_lt {L i : Nat} (h : i < L) : advanceIdx L i < L := by
  rw [advanceIdx_eq_mod h]
  exact Nat.mod_lt _ (by omega)

/-- The state machine keeps its items at every service state, whatever its inputs. -/
theorem scheduler_next_ok {L : Nat} {c : Scheduler} (go busy : Bool) (mux : Option Word) (h : c.Ok L) :
    (c.next L go busy mux).Ok L := by
  have ⟨hlegal, hidx, hdbg, hcs⟩ := h
  cases hst : c.st <;> rw [hst] at hlegal hdbg hcs
  case idle =>
    rw [next_idle hst]
    cases go
    · exact h
    · exact ⟨rfl, hidx, by simp [Scheduler.enter], hcs⟩
  case assertCs => rw [next_assertCs hst]; exact ⟨rfl, hidx, by simpa using hdbg, by simp [Phase.frameOpen]⟩
  case select =>
    rw [next_select hst]
    cases mux <;> exact ⟨rfl, hidx, by simpa [Scheduler.dispatch] using hdbg, hcs⟩
  case txhLoad => rw [next_txhLoad hst]; exact ⟨rfl, hidx, by simpa using hdbg, hcs⟩
  case txhWait =>
    rw [next_txhWait hst]
    cases busy
    · exact ⟨rfl, hidx, by simpa using hdbg, hcs⟩
    · exact h
  case txlLoad => rw [next_txlLoad hst]; exact ⟨rfl, hidx, by simpa using hdbg, hcs⟩
  case txlWait =>
    rw [next_txlWait hst]
    cases busy
    · exact ⟨rfl, hidx, by simpa using hdbg, hcs⟩
    · exact h
  case advance => rw [next_advance hst]; exact ⟨rfl, advanceIdx_lt_of_lt hidx, by simpa using hdbg, hcs⟩
  case deassertCs => rw [next_deassertCs hst]; exact ⟨rfl, hidx, by simpa using hdbg, by simp [Phase.frameOpen]⟩
  case exit => rw [next_exit hst]; exact ⟨rfl, hidx, by simp [Scheduler.leave], hcs⟩
  case illegal k => simp [Phase.isIllegal] at hlegal

/-- A start command sends the machine to a state that waits for the engine. -/
theorem next_waits_of_txStart {c : Scheduler} {d : Byte} (h : c.txStart = some d) (L : Nat) (go busy : Bool)
    (mux : Option Word) : (c.next L go busy mux).st.waits = true := by
  unfold Scheduler.txStart at h
  split at h
  · rename_i hst; rw [next_txhLoad hst]; rfl
  · rename_i hst; rw [next_txlLoad hst]; rfl
  · contradiction

/-- A state that waits for the engine holds while a byte is in flight. -/
theorem next_eq_self_of_waits {c : Scheduler} (h : c.st.waits = true) (L : Nat) (go : Bool) (mux : Option Word) :
    c.next L go true mux = c := by
  cases hst : c.st <;> simp only [hst, Phase.waits, Bool.false_eq_true] at h
  · exact next_txhWait hst
  · exact next_txlWait hst

/-! ## The serial engine -/

theorem txStart_eq_none_iff (c : Scheduler) : c.txStart = none ↔ c.st ≠ .txhLoad ∧ c.st ≠ .txlLoad := by
  unfold Scheduler.txStart
  cases c.st <;> simp

/-- A byte in flight ends exactly at the falling clock toggle of its last bit (43_serial_tx.md R167). -/
theorem shift_busy_eq_false_iff {H : Nat} {e : Serial} (hb : e.busy = true) :
    (e.shift H).busy = false ↔ e.divcnt = 0 ∧ e.sclkQ = true ∧ e.bitcnt = 7#3 := by
  by_cases hd : 0 < e.divcnt
  · simp [Serial.shift, hd, hb, hd.ne']
  · have hd0 : e.divcnt = 0 := by omega
    simp only [Serial.shift, Serial.toggle, hd0]
    split_ifs <;> simp_all

/-- An edge of a byte in flight leaves the divider within its range and the clock low once the byte is out. -/
theorem shift_ok {H : Nat} {p : Phase} {e : Serial} (hb : e.busy = true) (h : e.Ok H p) : (e.shift H).Ok H p := by
  obtain ⟨hdiv, hwait, -⟩ := h
  have hp := hwait hb
  unfold Serial.shift Serial.toggle
  split_ifs
  · exact ⟨Nat.lt_of_le_of_lt (Nat.sub_le _ _) hdiv, hwait, fun _ => hb⟩
  · exact ⟨Nat.sub_lt (by omega) Nat.one_pos, hwait, fun _ => hb⟩
  · exact ⟨Nat.sub_lt (by omega) Nat.one_pos, fun _ => hp, fun h => nomatch h⟩
  · exact ⟨Nat.sub_lt (by omega) Nat.one_pos, hwait, fun h => nomatch h⟩

/-- The engine keeps its items in step with the state machine, which reads the same `busy`. -/
theorem serial_next_ok {H L : Nat} {c : Scheduler} {e : Serial} (go : Bool) (mux : Option Word)
    (hl : c.st.isIllegal = false) (h : e.Ok H c.st) :
    (e.next H c).Ok H (c.next L go e.busy mux).st := by
  have ⟨hdiv, hwait, hclk⟩ := h
  cases htx : c.txStart with
  | some d =>
    rw [serial_next_start hl htx]
    exact ⟨Nat.sub_lt (by omega) Nat.one_pos, fun _ => next_waits_of_txStart htx .., fun h => nomatch h⟩
  | none =>
    cases hb : e.busy
    · rw [serial_next_idle hl htx hb]
      exact ⟨hdiv, by simp [hb], hclk⟩
    · rw [serial_next_shift hl htx hb, next_eq_self_of_waits (hwait hb)]
      exact shift_ok hb h

/-! ## The timer -/

theorem tcntNext_lt_period {P n : Nat} (run : Bool) (h : n < P) : tcntNext P run n < P := by
  unfold tcntNext
  split_ifs <;> omega

/-! ## Every step -/

/-- The registers after reset meet the invariant under all legal parameters. -/
theorem inv_of_atReset {s : State} (hc : s.cfg.legal = true) (h : s.atReset) : s.Inv := by
  obtain ⟨hctl, htmr, hser, -, -⟩ := h
  obtain ⟨hL, hP, hH, -⟩ := legal_parts hc
  rw [inv_iff, hctl, htmr, hser]
  refine ⟨hc, ⟨rfl, hL, by decide, by decide⟩, Nat.sub_lt hP Nat.one_pos, hH, ?_, ?_⟩ <;> decide

theorem resetEdge_inv {s : State} (hc : s.cfg.legal = true) : s.resetEdge.Inv :=
  inv_of_atReset hc ⟨rfl, rfl, rfl, rfl, rfl⟩

/-- An edge that is no reset edge keeps the invariant, whatever word the multiplexer shows. -/
theorem edge_inv {s : State} (mux : Option Word) (h : s.Inv) : (s.edge mux).Inv := by
  obtain ⟨hc, hctl, htmr, hser⟩ := (inv_iff s).1 h
  exact (inv_iff _).2
    ⟨hc, scheduler_next_ok _ _ _ hctl, tcntNext_lt_period _ htmr, serial_next_ok _ _ hctl.1 hser⟩

theorem step_inv {s t : State} (h : s.Inv) (hs : step s = .next t) : t.Inv := by
  rcases step_next hs with ⟨-, rfl⟩ | ⟨-, rfl⟩
  · exact resetEdge_inv h.1
  · exact edge_inv _ h

/-- Settles O5: a next state is the reset edge or an edge, and each group of registers keeps its items at both. -/
theorem everyStepKeepsInvariant : Obligations.EveryStepKeepsInvariant :=
  fun _ _ => step_inv

/-! ## The register widths -/

theorem fits_of_inv {s : State} (h : s.Inv) : s.fits := by
  obtain ⟨-, -, hidx, ⟨htcnt, hdiv⟩, -⟩ := h
  exact ⟨hidx.trans_le (le_two_pow_counterWidth _), htcnt.trans_le (le_two_pow_counterWidth _),
    hdiv.trans_le (le_two_pow_counterWidth _)⟩

/-- The registers after reset fit their widths under all parameters, legal or not. -/
theorem fits_of_atReset {s : State} (h : s.atReset) : s.fits := by
  obtain ⟨hctl, htmr, hser, -, -⟩ := h
  rw [State.fits, hctl, htmr, hser]
  exact ⟨Nat.two_pow_pos _, pred_lt_two_pow_counterWidth _, Nat.two_pow_pos _⟩

/-- Only ADVANCE writes the index (41_playback_index.md R116). -/
theorem next_idx_of_ne_advance {c : Scheduler} (h : c.st ≠ .advance) (L : Nat) (go busy : Bool) (mux : Option Word) :
    (c.next L go busy mux).idx = c.idx := by
  cases hst : c.st
  case advance => contradiction
  case select => rw [next_select hst]; cases mux <;> rfl
  all_goals simp [Scheduler.next, hst, Scheduler.enter, Scheduler.leave, apply_ite Scheduler.idx]

theorem edge_fits {s : State} (mux : Option Word) (h : s.fits) : (s.edge mux).fits := by
  obtain ⟨hidx, htcnt, hdiv⟩ := h
  refine ⟨?_, tcntNext_lt _ htcnt, serial_next_divcnt_lt _ hdiv⟩
  by_cases hst : s.ctl.st = .advance
  · rw [edge_ctl, next_advance hst]
    exact advanceIdx_lt _ _
  · rwa [edge_ctl, next_idx_of_ne_advance hst]

theorem step_fits {s t : State} (h : s.fits) (hs : step s = .next t) : t.fits := by
  rcases step_next hs with ⟨-, rfl⟩ | ⟨-, rfl⟩
  · exact fits_of_atReset ⟨rfl, rfl, rfl, rfl, rfl⟩
  · exact edge_fits _ h

/-- Settles O60: every write of the three registers is within the width, by the operation that writes it. -/
theorem everyStepKeepsRegisterWidths : Obligations.EveryStepKeepsRegisterWidths :=
  ⟨fun _ _ => step_fits, fun _ => fits_of_inv, fun n _ hw => counterWidth_le_iff n hw⟩

/-! ## Every run -/

/-- Under the invariant a step answers a next state. -/
theorem step_completes_of_inv {s : State} (h : s.Inv) : ∃ t, step s = .next t := by
  obtain ⟨hc, -, hidx, -⟩ := h
  cases hr : s.pins.rst
  · exact ⟨_, (step_exec hr).trans (exec_completes hc hidx _)⟩
  · exact ⟨_, step_reset hr⟩

/-- From a state that meets the invariant every run goes on and meets it. -/
theorem run_inv {s : State} (h : s.Inv) (n : Nat) : ∃ t, run n s = .next t ∧ t.Inv := by
  induction n generalizing s with
  | zero => exact ⟨s, rfl, h⟩
  | succ n ih =>
    obtain ⟨u, hu⟩ := step_completes_of_inv h
    rw [run_succ hu]
    exact ih (step_inv h hu)

/-- Chip-select is low inside a service alone, where the strobe is high (10_state.md R33). -/
theorem dbg_of_csN_low {s : State} (h : s.Inv) (hcs : s.outputs.csN = false) : s.outputs.dbg = true := by
  obtain ⟨-, -, -, -, hdbg, hopen, -⟩ := h
  refine hdbg.2 fun hst => ?_
  have hf := hopen.1 hcs
  rw [hst] at hf
  exact nomatch hf

/-- Settles O6, by the invariant along the run. -/
theorem everyRunFromResetKeepsInvariant : Obligations.EveryRunFromResetKeepsInvariant := by
  intro s n hc h
  obtain ⟨t, ht, hinv⟩ := run_inv (inv_of_atReset hc h) n
  exact ⟨t, ht, hinv, dbg_of_csN_low hinv⟩

/-! ## The flags (10_state.md R28) -/

theorem tickPendNext_of_not_pending {s : State} (h : s.tmr.tickPend = false) : s.tickPendNext = s.expire := by
  simp [State.tickPendNext, h]

/-- A pending tick is consumed by a start edge on which no further one expires (60_exceptions.md R197). -/
theorem tickPendNext_eq_false_iff {s : State} (h : s.tmr.tickPend = true) :
    s.tickPendNext = false ↔ s.go = true ∧ s.expire = false := by
  simp [State.tickPendNext, h, and_comm]

/-- A clear overrun flag is set by an expiry that finds a tick pending or a service running (60_exceptions.md R188). -/
theorem overrunNext_eq_true_iff {s : State} (h : s.tmr.overrunQ = false) :
    s.overrunNext = true ↔ s.expire = true ∧ (s.tmr.tickPend = true ∨ s.ctl.st ≠ .idle) := by
  simp [State.overrunNext, h]

theorem overrunNext_of_overrun {s : State} (h : s.tmr.overrunQ = true) : s.overrunNext = true := by
  simp [State.overrunNext, h]

/-- `busy` rises exactly at a start command (43_serial_tx.md R165). -/
theorem serial_next_busy_eq_true_iff {H : Nat} {c : Scheduler} {e : Serial} (hl : c.st.isIllegal = false)
    (hb : e.busy = false) : (e.next H c).busy = true ↔ c.st = .txhLoad ∨ c.st = .txlLoad := by
  have hstart : c.txStart ≠ none ↔ c.st = .txhLoad ∨ c.st = .txlLoad := by
    rw [Ne, txStart_eq_none_iff]
    tauto
  rw [← hstart]
  cases htx : c.txStart with
  | some d => simp [serial_next_start hl htx, Serial.start]
  | none => simp [serial_next_idle hl htx hb, hb]

/-- `busy` falls exactly at the end of the byte in flight, unless a start command takes that edge (43_serial_tx.md R165,
R167). -/
theorem serial_next_busy_eq_false_iff {H : Nat} {c : Scheduler} {e : Serial} (hl : c.st.isIllegal = false)
    (hb : e.busy = true) :
    (e.next H c).busy = false ↔
      c.txStart = none ∧ e.divcnt = 0 ∧ e.sclkQ = true ∧ e.bitcnt = 7#3 := by
  cases htx : c.txStart with
  | some d => simp [serial_next_start hl htx, Serial.start]
  | none => rw [serial_next_shift hl htx hb, shift_busy_eq_false_iff hb, eq_self, true_and]

/-- Settles O24: each flag's next value, by what writes it at an edge that is no reset edge. -/
theorem flagsAreWrittenAsListed : Obligations.FlagsAreWrittenAsListed := by
  intro s u hr hl hs
  rw [step_exec hr] at hs
  obtain rfl := exec_next hs
  refine ⟨tickPendNext_of_not_pending, tickPendNext_eq_false_iff, overrunNext_eq_true_iff, overrunNext_of_overrun,
    serial_next_busy_eq_true_iff hl, fun hb => ?_⟩
  rw [edge_ser, serial_next_busy_eq_false_iff hl hb, txStart_eq_none_iff, and_assoc]

/-! ## The reset state -/

theorem resetOf_atReset (c : Config) : (State.resetOf c).atReset := ⟨rfl, rfl, rfl, rfl, rfl⟩

/-- The reference parameters are legal, whatever its free values are. -/
theorem reference_legal : Config.reference.legal = true := by
  have hwf : Memory.wf Config.reference = true := reset_wf
  rw [Config.legal, hwf]
  simp [Config.reference, SelMap.reference_legal]

/-- Under the reference map code 0b0000 selects table 0, whose first two words are the source's (40_waveform_rom.md R98). -/
theorem reference_sourceWords : sourceWords Config.reference := by
  intro t ht
  obtain rfl : Table.t0 = t := Option.some.inj ht
  exact ⟨rfl, fun _ => rfl⟩

/-- Settles O4: the reset registers meet the invariant and the widths, and the reference parameters are legal. -/
theorem resetMeetsInvariant : Obligations.ResetMeetsInvariant :=
  ⟨fun c hc => inv_of_atReset hc (resetOf_atReset c), fun c => fits_of_atReset (resetOf_atReset c),
    inv_of_atReset reference_legal (resetOf_atReset _), reference_sourceWords⟩

end Sys2Proof.Machine

/-! # The waveform ROM: its address, its one stop, and that nothing writes it (20_memory.md R54, R61, R62) -/

namespace Sys2Proof.Machine

/-! ## The flat address -/

theorem tableNum_lt (t : Table) : tableNum t < 3 := by
  cases t <;> decide

theorem tableNum_injective : Function.Injective tableNum := by
  intro t u
  cases t <;> cases u <;> decide

theorem romAddr_div {L i : Nat} (t : Table) (h : i < L) : romAddr L t i / L = tableNum t := by
  rw [romAddr, Nat.mul_comm, Nat.mul_add_div (Nat.zero_lt_of_lt h), Nat.div_eq_of_lt h, Nat.add_zero]

theorem romAddr_mod {L i : Nat} (t : Table) (h : i < L) : romAddr L t i % L = i := by
  rw [romAddr, Nat.mul_add_mod_of_lt h]

/-- The address determines the pair it was formed from: the table is its quotient by `L`, the index its remainder. -/
theorem romAddr_injective {L i j : Nat} {t u : Table} (hi : i < L) (hj : j < L)
    (h : romAddr L t i = romAddr L u j) : t = u ∧ i = j := by
  constructor
  · apply tableNum_injective
    rw [← romAddr_div t hi, h, romAddr_div u hj]
  · rw [← romAddr_mod t hi, h, romAddr_mod u hj]

/-- At a table length that is a power of two the address is the two bits of the table above the bits of the index. -/
theorem romAddr_two_pow {m i : Nat} (t : Table) (h : i < 2 ^ m) :
    romAddr (2 ^ m) t i = (BitVec.ofNat 2 (tableNum t) ++ BitVec.ofNat m i).toNat := by
  have ht : tableNum t < 2 ^ 2 := (tableNum_lt t).trans (by decide)
  rw [BitVec.toNat_append, BitVec.toNat_ofNat, BitVec.toNat_ofNat, Nat.mod_eq_of_lt ht, Nat.mod_eq_of_lt h,
    ← Nat.shiftLeft_add_eq_or_of_lt h, Nat.shiftLeft_eq, romAddr]

/-- Settles O15: the bit form at `L = 2 ^ 5`, the bound `3 * L`, and the pair read back from the address. -/
theorem romAddressIsTableAndIndex : Obligations.RomAddressIsTableAndIndex :=
  ⟨fun t _ hi => ⟨romAddr_two_pow (m := 5) t hi, romAddr_lt t hi⟩, fun _ _ _ _ _ => romAddr_injective⟩

/-! ## The stop -/

/-- A data form is the edge under its table. -/
theorem exec_eq_dataEdge {i : Instr} {t : Table} (h : i.table = some t) (s : State) : exec i s = dataEdge t s := by
  cases i <;> cases h <;> rfl

theorem dataEdge_of_romRead_none {t : Table} {s : State} (hst : s.ctl.st = .select)
    (h : romRead s.cfg t s.ctl.idx = none) : dataEdge t s = .fault .romNoWord := by
  simp only [dataEdge, hst, h]

/-- Settles O8: a data form's SELECT edge reads the ROM, and stops when the read answers no word. -/
theorem dataFormStopsWhereRomHasNoWord : Obligations.DataFormStopsWhereRomHasNoWord :=
  fun _ _ s hi hst hrom => (exec_eq_dataEdge hi s).trans (dataEdge_of_romRead_none hst hrom)

/-! ## No write -/

/-- Settles O18: the ROM is one of the parameters, and no edge of a run writes them. -/
theorem romIsNeverWritten : Obligations.RomIsNeverWritten := by
  intro n s u h
  have hcfg : u.cfg = s.cfg := run_cfg h
  exact ⟨hcfg, fun t i => by rw [hcfg]⟩

end Sys2Proof.Machine

/-! # The encodings: selection codes and forms, state codes, the word on the wire (30_encoding.md) -/

namespace Sys2Proof

/-! ## Codes and forms (30_encoding.md R73, R80 to R82) -/

/-- The code of a well-formed form selects the form's own table. -/
theorem table_encode {m : SelMap} {i : Instr} (h : i.wf m = true) : m.table (encode m i) = i.table := by
  cases i with
  | svcT0 => exact Laws.CodeOfForm.svcT0 m h
  | svcT1 => exact Laws.CodeOfForm.svcT1 m h
  | svcT2 => exact Laws.CodeOfForm.svcT2 m h
  | svcNone c => exact Laws.CodeOfForm.svcNone c m h

/-- A form is known by its table, and the silent form by the code it holds. -/
theorem decode_encode {m : SelMap} {i : Instr} (h : i.wf m = true) : decode m (encode m i) = i := by
  have htable := table_encode h
  cases i with
  | svcT0 => exact decode_of_table htable
  | svcT1 => exact decode_of_table htable
  | svcT2 => exact decode_of_table htable
  | svcNone c => exact decode_of_none htable

/-- Settles O9: the code of a form selects the form's table, and the decoder answers by the table. -/
theorem decodeOfEncodeGivesFormBack : Obligations.DecodeOfEncodeGivesFormBack :=
  fun _ _ => decode_encode

theorem encode_formOfTable (m : SelMap) (t : Table) : encode m (formOfTable t) = m.codeOf t := by
  cases t <;> rfl

theorem wf_formOfTable (m : SelMap) (t : Table) : (formOfTable t).wf m = m.legal := by
  cases t <;> rfl

theorem wf_svcNone_iff {m : SelMap} {c : Code} :
    (Instr.svcNone c).wf m = true ↔ m.legal = true ∧ m.table c = none := by
  simp [Instr.wf, SelMap.table_eq_none, and_assoc]

theorem decode_wf {m : SelMap} (h : m.legal = true) (c : Code) : (decode m c).wf m = true := by
  cases htable : m.table c with
  | none => rw [decode_of_none htable, wf_svcNone_iff]; exact ⟨h, htable⟩
  | some t => rw [decode_of_table htable, wf_formOfTable, h]

theorem encode_decode {m : SelMap} (h : m.legal = true) (c : Code) : encode m (decode m c) = c := by
  cases htable : m.table c with
  | none => rw [decode_of_none htable, encode]
  | some t => rw [decode_of_table htable, encode_formOfTable, (SelMap.table_eq_some h).1 htable]

/-- Settles O10: the decoded form has the code, and any other form with it would decode to the same form. -/
theorem everyCodeSelectsExactlyOneForm : Obligations.EveryCodeSelectsExactlyOneForm := by
  intro m c h
  refine ⟨decode_wf h c, encode_decode h c, fun i hi hc => ?_⟩
  rw [← hc, decode_encode hi]

/-- Code 0b0000 is defined under every legal map (30_encoding.md R73). -/
theorem SelMap.table_zero_ne_none {m : SelMap} (h : m.legal = true) : m.table 0b0000#4 ≠ none := by
  obtain ⟨_, _, _, hzero, _⟩ := SelMap.legal_parts h
  rw [Ne, SelMap.table_eq_none]
  rintro ⟨h0, h1, h2⟩
  rcases hzero with hz | hz | hz
  · exact h0 hz.symm
  · exact h1 hz.symm
  · exact h2 hz.symm

/-- Code 0b0011 is undefined under every legal map (30_encoding.md R73). -/
theorem SelMap.table_three_eq_none {m : SelMap} (h : m.legal = true) : m.table 0b0011#4 = none := by
  obtain ⟨_, _, _, _, h0, h1, h2⟩ := SelMap.legal_parts h
  exact SelMap.table_eq_none.2 ⟨h0.symm, h1.symm, h2.symm⟩

/-- Settles O11: a table's only code is the one the map holds for it, and the decoder answers by the table. -/
theorem undefinedCodesSelectTheSilentForm : Obligations.UndefinedCodesSelectTheSilentForm :=
  fun m h => ⟨fun t => ⟨m.codeOf t, (SelMap.table_eq_some h).2 rfl, fun _ => (SelMap.table_eq_some h).1⟩,
    SelMap.table_zero_ne_none h, SelMap.table_three_eq_none h, fun _ => decode_of_none,
    fun c _ htable => (Machine.table_decode m c).trans htable⟩

/-- Settles O12, code by code. -/
theorem opcodeRowsPartitionTheCodes : Obligations.OpcodeRowsPartitionTheCodes := by
  unfold Obligations.OpcodeRowsPartitionTheCodes
  decide

/-- Settles O13: each word is decoded as it stands. -/
theorem sampleWordsDecode : Obligations.SampleWordsDecode := by
  unfold Obligations.SampleWordsDecode
  decide

end Sys2Proof

namespace Sys2Proof.Machine

/-! ## State codes (30_encoding.md R78, R83) -/

theorem phaseOfCode_phaseCode (p : Phase) : phaseOfCode (phaseCode p) = p := by
  cases p with
  | illegal k => revert k; decide
  | _ => rfl

theorem phaseCode_phaseOfCode : ∀ b : BitVec 4, phaseCode (phaseOfCode b) = b := by
  decide

theorem phaseOfCode_isIllegal : ∀ b : BitVec 4, (phaseOfCode b).isIllegal = decide (10 ≤ b.toNat) := by
  decide

/-- Settles O14: code and state determine each other, and the codes of the ten states are those listed. -/
theorem stateCodesRoundTrip : Obligations.StateCodesRoundTrip :=
  ⟨phaseOfCode_phaseCode, phaseCode_phaseOfCode, rfl, phaseOfCode_isIllegal⟩

/-! ## The word split and its bits on the wire (30_encoding.md R76; 20_memory.md R55, R56) -/

theorem toNat_hiByte (w : Word) : (hiByte w).toNat = w.toNat / 256 := by
  have hlt : w.toNat / 256 < 256 := Nat.div_lt_of_lt_mul w.isLt
  rw [hiByte, BitVec.extractLsb'_toNat, Nat.shiftRight_eq_div_pow, Nat.mod_eq_of_lt hlt]

theorem toNat_loByte (w : Word) : (loByte w).toNat = w.toNat % 256 := by
  rw [loByte, BitVec.extractLsb'_toNat, Nat.shiftRight_zero]

/-- Bit `i` of the high byte is bit `8 + i` of the word, and bit `i` of the low byte is bit `i`. -/
theorem wordBits_eq (w : Word) : wordBits w = (List.range 16).map (fun k => w.getLsbD (15 - k)) := by
  simp [wordBits, byteBits, hiByte, loByte, List.range_succ]

/-- The bits of a byte, most significant first, make up the byte. -/
theorem byteOfBits_bits (b : Byte) :
    byteOfBits (b.getLsbD 7) (b.getLsbD 6) (b.getLsbD 5) (b.getLsbD 4) (b.getLsbD 3) (b.getLsbD 2) (b.getLsbD 1)
      (b.getLsbD 0) = b := by
  apply BitVec.eq_of_getLsbD_eq
  intro i hi
  simp only [byteOfBits, BitVec.getLsbD_append]
  interval_cases i <;> simp

/-- Grouping a frame by 8 gives back the byte it begins with. -/
theorem frameBytes_byteBits_append (b : Byte) (rest : Frame) :
    frameBytes (byteBits b ++ rest) = b :: frameBytes rest :=
  congrArg (· :: frameBytes rest) (byteOfBits_bits b)

theorem frameBytes_wordBits (w : Word) : frameBytes (wordBits w) = [hiByte w, loByte w] := by
  have hlo : frameBytes (byteBits (loByte w)) = [loByte w] := frameBytes_byteBits_append (loByte w) []
  rw [wordBits, frameBytes_byteBits_append, hlo]

/-- Settles O16: the bytes are quotient and remainder by 256, and the frame is the high byte's bits before the low byte's. -/
theorem wordGoesOutHighByteFirst : Obligations.WordGoesOutHighByteFirst := by
  intro w
  refine ⟨?_, toNat_hiByte w, toNat_loByte w, wordBits_eq w, frameBytes_wordBits w⟩
  rw [toNat_hiByte, toNat_loByte, Nat.div_add_mod']

/-! ## The form a step runs (30_encoding.md R79) -/

/-- Settles O19: no reset edge runs the form shown, and a placed word is in `sync2` with no reset at the next edge. -/
theorem stepRunsTheDecodedForm : Obligations.StepRunsTheDecodedForm :=
  ⟨fun _ => step_exec, fun s w _ => step_exec (placeCode_rst s (BitVec.ofNat 4 w))⟩

end Sys2Proof.Machine

/-! # The waveform ROM in use: its words, the fetch, the bytes a service sends (40_waveform_rom.md R96, R98, R102) -/

namespace Sys2Proof.Machine

/-! ## The words (R96; 20_memory.md R62) -/

theorem romRead_none {c : Config} (t : Table) {i : Nat} (h : c.L ≤ i) : romRead c t i = none :=
  if_neg (Nat.not_lt.2 h)

/-- Settles O17: below `L` the address is one the ROM's canonical form lists, and from `L` on the read answers none. -/
theorem romHoldsOneWordPerTableAndIndex : Obligations.RomHoldsOneWordPerTableAndIndex :=
  fun _ t _ hc => ⟨romRead_some hc t, romRead_none t⟩

/-! ## The fetch (R102) -/

/-- Outside the state machine and the engine every edge does the same, whatever word is shown. -/
theorem edge_ticksTo (s : State) (m : Option Word) : s.ticksTo (s.edge m) :=
  ⟨rfl, rfl, rfl, rfl, rfl, rfl, rfl, rfl⟩

/-- An idle engine holds at SELECT, which issues no start command (43_serial_tx.md R164). -/
theorem serial_next_of_select {H : Nat} {c : Scheduler} {e : Serial} (hst : c.st = .select) (hb : e.busy = false) :
    e.next H c = e := by
  have hl : c.st.isIllegal = false := by rw [hst]; rfl
  have htx : c.txStart = none := by rw [txStart_eq_none_iff, hst]; decide
  exact serial_next_idle hl htx hb

/-- Only SELECT writes the latched word. -/
theorem next_wordQ_of_ne_select {c : Scheduler} (h : c.st ≠ .select) (L : Nat) (go busy : Bool) (mux : Option Word) :
    (c.next L go busy mux).wordQ = c.wordQ := by
  cases hst : c.st
  case select => contradiction
  all_goals simp [Scheduler.next, hst, Scheduler.enter, Scheduler.leave, apply_ite Scheduler.wordQ]

/-- Settles O28: the form's table holds a word at the index, the SELECT edge latches it, and no other edge latches any. -/
theorem dataFormsFetchAtSelect : Obligations.DataFormsFetchAtSelect := by
  refine ⟨fun i t s hi hc hidx hst hb => ?_, fun i s u hst hu => ?_⟩
  · obtain ⟨w, hw⟩ := romRead_some hc t hidx
    exact ⟨w, s.edge (some w), hw, exec_data hi hw, next_select hst, serial_next_of_select hst hb, edge_ticksTo s _⟩
  · rw [exec_next hu]
    exact next_wordQ_of_ne_select hst ..

/-! ## The frame of a data service (30_encoding.md R77) -/

theorem st_idle_of_go {s : State} (h : s.go = true) : s.ctl.st = .idle := by
  by_contra hst
  rw [go_false_of_ne_idle hst] at h
  contradiction

/-- Under the invariant chip-select is high in IDLE, and the engine and its clock rest. -/
theorem quiet_of_inv_idle {s : State} (h : s.Inv) (hst : s.ctl.st = .idle) :
    s.ctl.csNQ = true ∧ s.ser.busy = false ∧ s.ser.sclkQ = false := by
  obtain ⟨-, -, -, -, -, hcs, hwait, hclk⟩ := h
  rw [hst] at hcs hwait
  have hb : s.ser.busy = false := Bool.eq_false_iff.2 fun hb => nomatch hwait hb
  exact ⟨Bool.eq_true_of_not_eq_false (fun hlow => nomatch hcs.1 hlow), hb,
    Bool.eq_false_iff.2 fun hs => nomatch hb.symm.trans (hclk hs)⟩

/-- Between its fetch and DEASSERT_CS a data service is in a sending state or in ADVANCE. -/
theorem DataService.sends_or_advance {x : Nat → State} {s : State} {w : Word} (h : DataService x s w) {k : Nat}
    (hlo : 3 ≤ k) (hhi : k ≤ 7 + 32 * s.cfg.H) : (x k).ctl.st.sends = true ∨ (x k).ctl.st = .advance := by
  rcases dataService_cases (H := s.cfg.H) (k := k) (by omega) with
    rfl | rfl | rfl | rfl | ⟨n, hn, rfl⟩ | rfl | ⟨n, hn, rfl⟩ | rfl | rfl | rfl | rfl
  · omega
  · omega
  · omega
  · rw [h.fetched.1]; exact .inl rfl
  · rw [(h.high n hn).1]; exact .inl rfl
  · rw [h.between.1]; exact .inl rfl
  · rw [(h.low n hn).1]; exact .inl rfl
  · rw [h.sent.1]; exact .inr rfl
  · omega
  · omega
  · omega

/-- Whatever frames there were before, a data service closes one more, the bits of its word. -/
theorem doneAt_dataService {f : State → Option Word} {s : State} {w : Word} (h : DataService (path f s) s w)
    (hst : s.ctl.st = .idle) (hmux : f (path f s 2) = some w) (cur : Frame) (done : List Frame) :
    doneAt f s cur done (10 + 32 * s.cfg.H) = done ++ [wordBits w] := by
  have hsel : (path f s 2).ctl.st = .select := by rw [h.opened.1]
  have hclose : (path f s (8 + 32 * s.cfg.H)).ctl.st = .deassertCs := by rw [h.advanced.1]; rfl
  have hexit : (path f s (9 + 32 * s.cfg.H)).ctl.st = .exit := by rw [h.closed.1]; rfl
  have hcur : curAt f s cur 3 = wordBits w := by simp only [curAt, nextFrame, hsel, hmux, if_true]
  have hdone : doneAt f s cur done 3 = done := by simp [doneAt, nextDone, hst, h.start.1, hsel]
  obtain ⟨hcurStill, hdoneStill⟩ := framesAt_still (f := f) (s := s) (cur := cur) (done := done) (a := 3)
    (n := 5 + 32 * s.cfg.H) fun k hk => by
      obtain ⟨-, -, hselect, -, hdeassert, -⟩ :=
        Phase.sends_or_advance_ne (h.sends_or_advance (k := 3 + k) (by omega) (by omega))
      exact ⟨hselect, hdeassert⟩
  rw [show 3 + (5 + 32 * s.cfg.H) = 8 + 32 * s.cfg.H by omega] at hcurStill hdoneStill
  calc doneAt f s cur done (10 + 32 * s.cfg.H)
      = doneAt f s cur done (9 + 32 * s.cfg.H) := by
        rw [show 10 + 32 * s.cfg.H = 9 + 32 * s.cfg.H + 1 by omega, doneAt, nextDone, hexit, if_neg (by decide)]
    _ = done ++ [wordBits w] := by
        rw [show 9 + 32 * s.cfg.H = 8 + 32 * s.cfg.H + 1 by omega, doneAt, nextDone, if_pos hclose, hcurStill,
          hdoneStill, hcur, hdone]

/-- The frame log of a path that is a data service: one closed frame, the bits of its word (43_serial_tx.md R176). -/
theorem pathLog_dataService {f : State → Option Word} {s : State} {w : Word} (h : DataService (path f s) s w)
    (hinv : s.Inv) (hst : s.ctl.st = .idle) (hmux : f (path f s 2) = some w) :
    pathLog f s .empty (10 + 32 * s.cfg.H) = ⟨[wordBits w], none⟩ := by
  obtain ⟨hcs, hb, hsclk⟩ := quiet_of_inv_idle hinv hst
  have htracks := tracks_path (f := f) (tracks_idle hst hcs hb hsclk) (10 + 32 * s.cfg.H)
  have hclosed := htracks.closed.trans (doneAt_dataService h hst hmux [] [])
  have hopened := htracks.opened
  rw [h.ended.1] at hopened
  exact congrArg₂ FrameLog.mk hclosed hopened

/-! ## The services of the running block (42_scheduler.md R139, R144) -/

/-- The word a step's form shows is that of the table the code in `sync2` selects. -/
theorem shownWord_of_table {s : State} {t : Table} (h : s.cfg.selMap.table s.sync2 = some t) :
    shownWord s = romRead s.cfg t s.ctl.idx := by
  rw [shownWord, formMux_fetched, h]

theorem frameLog_trace {s : State} (hc : s.cfg.legal = true) (hidx : s.ctl.idx < s.cfg.L) {n : Nat}
    (hr : s.noReset n) : frameLog (trace n s) = pathLog shownWord s .empty n := by
  rw [frameLog, trace_eq_path hc hidx hr, pathLog]

/-- A service that captures a defined code at its start edge sends the word of the code's table at the index, in one
frame. -/
theorem frameLog_of_defined_code {s : State} {t : Table} {w : Word} (hinv : s.Inv) (hgo : s.go = true)
    (hr : s.noReset (10 + 32 * s.cfg.H)) (ht : s.cfg.selMap.table s.captured = some t)
    (hw : romRead s.cfg t s.ctl.idx = some w) :
    frameLog (trace (10 + 32 * s.cfg.H) s) = ⟨[wordBits w], none⟩ := by
  have hst := st_idle_of_go hgo
  obtain ⟨-, hb, -⟩ := quiet_of_inv_idle hinv hst
  have ⟨hc, _, hidx, _⟩ := hinv
  obtain ⟨-, -, hH, -⟩ := legal_parts hc
  have hshown : ∀ u : State, u.cfg = s.cfg → u.ctl.st = .select → u.ctl.idx = s.ctl.idx → u.sync2 = s.captured →
      shownWord u = some w := by
    intro u hcfg _ hui hcode
    rw [shownWord_of_table (t := t) (by rw [hcfg, hcode, ht]), hcfg, hui, hw]
  have hserve : DataService (path shownWord s) s w := dataService_path hH hidx hgo hb hshown
  have hmux : shownWord (path shownWord s 2) = some w :=
    hshown _ (path_cfg _ _ _) (by rw [hserve.opened.1]) (by rw [hserve.opened.1]) (path_sync2 _ _)
  rw [frameLog_trace hc hidx hr, pathLog_dataService hserve hinv hst hmux]

/-- The bytes of that frame are the word's high byte and low byte. -/
theorem closedBytes_of_defined_code {s : State} {t : Table} {w : Word} (hinv : s.Inv) (hgo : s.go = true)
    (hr : s.noReset (10 + 32 * s.cfg.H)) (ht : s.cfg.selMap.table s.captured = some t)
    (hw : romRead s.cfg t s.ctl.idx = some w) :
    (frameLog (trace (10 + 32 * s.cfg.H) s)).closed.map frameBytes = [[hiByte w, loByte w]] := by
  rw [frameLog_of_defined_code hinv hgo hr ht hw]
  exact congrArg (fun bytes => [bytes]) (frameBytes_wordBits w)

/-- Settles O51: code 0b0000 has a table, which holds the source's words at entries 0 and 1; entry 1 exists where an index
is 1. -/
theorem sourceScenarioBytes : Obligations.SourceScenarioBytes := by
  intro s hinv hwords hgo hcode hr
  have ⟨hc, _, hidx, _⟩ := hinv
  obtain ⟨-, -, -, -, hmap, -⟩ := legal_parts hc
  obtain ⟨t, ht⟩ := Option.ne_none_iff_exists'.1 (SelMap.table_zero_ne_none hmap)
  obtain ⟨hfirst, hsecond⟩ := hwords t ht
  rw [← hcode] at ht
  refine ⟨fun h0 => ?_, fun h1 => ?_⟩
  · exact closedBytes_of_defined_code hinv hgo hr ht (by rw [h0, hfirst])
  · exact closedBytes_of_defined_code hinv hgo hr ht (by rw [h1, hsecond (h1 ▸ hidx)])

end Sys2Proof.Machine

/-! # The playback index: what writes it, one ADVANCE for each service, what it counts (41_playback_index.md) -/

namespace Sys2Proof.Machine

/-! ## What writes the index (R116) -/

/-- Settles O23: the edge of a form writes the index in ADVANCE alone, and a reset edge clears it. -/
theorem onlyAdvanceAndResetWriteIndex : Obligations.OnlyAdvanceAndResetWriteIndex := by
  intro s u hs
  refine ⟨fun hr hst => ?_, fun hr => ?_⟩
  · rw [step_exec hr] at hs
    rw [exec_next hs]
    exact next_idx_of_ne_advance hst ..
  · rw [step_reset hr] at hs
    cases hs
    rfl

/-! ## Counting edges along a path -/

/-- A count over a trace without reset is a count over the edge numbers of its path. -/
theorem countEdges_trace {s : State} (hc : s.cfg.legal = true) (hidx : s.ctl.idx < s.cfg.L) {n : Nat}
    (hr : s.noReset n) (g : State → Bool) :
    countEdges g (trace n s) = Nat.count (fun k => g (path shownWord s k) = true) n := by
  rw [trace_eq_path hc hidx hr]
  clear hr
  induction n with
  | zero => rfl
  | succ n ih => rw [countEdges_path, ih, Nat.count_succ]

/-- A quantity that each step of `p` raises by one and each step of `q` lowers by one is, from its first value on, the
difference of the two counts. -/
theorem count_balance {φ : Nat → Nat} {p q : Nat → Prop} [DecidablePred p] [DecidablePred q] {n : Nat}
    (h : ∀ k, k < n → φ (k + 1) + (if q k then 1 else 0) = φ k + (if p k then 1 else 0)) :
    φ n + Nat.count q n = φ 0 + Nat.count p n := by
  induction n with
  | zero => rfl
  | succ n ih =>
    have hprev := ih fun k hk => h k (by omega)
    have hlast := h n (by omega)
    rw [Nat.count_succ, Nat.count_succ]
    omega

/-- What holds at one number of a range alone is counted once in it. -/
theorem count_eq_one {p : Nat → Prop} [DecidablePred p] {n j : Nat} (hj : j < n) (h : ∀ k, k < n → (p k ↔ k = j)) :
    Nat.count p n = 1 := by
  rw [Nat.count_eq_card_filter_range, Finset.card_eq_one]
  refine ⟨j, Finset.ext fun k => ?_⟩
  rw [Finset.mem_filter, Finset.mem_range, Finset.mem_singleton]
  exact ⟨fun ⟨hk, hp⟩ => (h k hk).1 hp, fun hk => hk ▸ ⟨hj, (h j hj).2 rfl⟩⟩

theorem path_inv {f : State → Option Word} {s : State} (h : s.Inv) (k : Nat) : (path f s k).Inv := by
  induction k with
  | zero => exact h
  | succ k ih => exact edge_inv _ ih

/-! ## ADVANCE edges and EXIT edges -/

/-- The states of a service that has performed its ADVANCE. -/
def Phase.advanced : Phase → Bool
  | .deassertCs => true
  | .exit => true
  | _ => false

/-- A service has performed its ADVANCE after the ADVANCE edge, and until the EXIT edge. -/
theorem next_advanced (L : Nat) (go busy : Bool) (mux : Option Word) (c : Scheduler) :
    (c.next L go busy mux).st.advanced = (decide (c.st = .advance) || decide (c.st = .deassertCs)) := by
  cases hst : c.st
  case idle => rw [next_idle hst]; cases go <;> simp [Scheduler.enter, hst, Phase.advanced]
  case assertCs => rw [next_assertCs hst]; rfl
  case select => rw [next_select hst]; cases mux <;> rfl
  case txhLoad => rw [next_txhLoad hst]; rfl
  case txhWait => rw [next_txhWait hst]; cases busy <;> simp [hst, Phase.advanced]
  case txlLoad => rw [next_txlLoad hst]; rfl
  case txlWait => rw [next_txlWait hst]; cases busy <;> simp [hst, Phase.advanced]
  case advance => rw [next_advance hst]; rfl
  case deassertCs => rw [next_deassertCs hst]; rfl
  case exit => rw [next_exit hst]; rfl
  case illegal k => rw [next_illegal hst]; rfl

/-- Along any path the ADVANCE edges exceed the EXIT edges by one in the states between the two, else by none. -/
theorem count_advance_eq {f : State → Option Word} {s : State} (hst : s.ctl.st = .idle) (n : Nat) :
    (path f s n).ctl.st.advanced.toNat + Nat.count (fun k => (path f s k).ctl.st = .exit) n =
      Nat.count (fun k => (path f s k).ctl.st = .advance) n := by
  have hedge (k : Nat) : (path f s (k + 1)).ctl.st.advanced.toNat + (if (path f s k).ctl.st = .exit then 1 else 0) =
      (path f s k).ctl.st.advanced.toNat + (if (path f s k).ctl.st = .advance then 1 else 0) := by
    rw [path_succ, edge_ctl, next_advanced]
    cases (path f s k).ctl.st <;> rfl
  have hbalance := count_balance (φ := fun k => (path f s k).ctl.st.advanced.toNat) (n := n) fun k _ => hedge k
  simpa [hst, Phase.advanced] using hbalance

/-- In IDLE every ADVANCE edge has had its EXIT edge. -/
theorem count_advance_eq_of_idle {f : State → Option Word} {s : State} (hst : s.ctl.st = .idle) {n : Nat}
    (hend : (path f s n).ctl.st = .idle) :
    Nat.count (fun k => (path f s k).ctl.st = .advance) n = Nat.count (fun k => (path f s k).ctl.st = .exit) n := by
  rw [← count_advance_eq hst, hend]
  exact Nat.zero_add _

/-! ## Every service advances once (R114) -/

/-- A service that reaches ADVANCE from `p` after `n` edges: it takes three more edges, the last of which is its only EXIT
edge. -/
structure ServiceSpan (x : Nat → State) (p : Phase) (n : Nat) : Prop where
  pos : 0 < n
  before : (x (n - 1)).ctl.st = p
  exits : ∀ k, k < n + 3 → ((x k).ctl.st = .exit ↔ k = n + 2)
  ended : (x (n + 3)).ctl.st = .idle

theorem SilentService.span {x : Nat → State} {s : State} (h : SilentService x s) (hst : (x 0).ctl.st = .idle) :
    ServiceSpan x .select 3 where
  pos := by decide
  before := by rw [h.opened.1]
  exits k hk := by
    interval_cases k
    · simp [hst]
    · simp [h.start.1]
    · simp [h.opened.1]
    · simp [h.skipped.1]
    · simp [h.advanced.1]
    · simp [h.closed.1]
  ended := by rw [h.ended.1]

theorem DataService.span {x : Nat → State} {s : State} {w : Word} (h : DataService x s w)
    (hst : (x 0).ctl.st = .idle) : ServiceSpan x .txlWait (7 + 32 * s.cfg.H) where
  pos := by omega
  before := by
    rw [show 7 + 32 * s.cfg.H - 1 = 6 + 16 * s.cfg.H + 16 * s.cfg.H by omega, (h.low _ le_rfl).1]
    rfl
  exits k hk := by
    have hcases : k = 0 ∨ k = 1 ∨ k = 2 ∨ (3 ≤ k ∧ k ≤ 7 + 32 * s.cfg.H) ∨ k = 8 + 32 * s.cfg.H ∨
        k = 9 + 32 * s.cfg.H := by omega
    rcases hcases with rfl | rfl | rfl | ⟨hlo, hhi⟩ | rfl | rfl
    · simp [hst]
    · simp [h.start.1]
    · simp [h.opened.1]
    · obtain ⟨-, -, -, hexit, -⟩ := Phase.sends_or_advance_ne (h.sends_or_advance hlo hhi)
      exact iff_of_false hexit (by omega)
    · rw [h.advanced.1]
      exact iff_of_false (by simp [inFrame]) (by omega)
    · rw [h.closed.1]
      exact iff_of_true rfl (by omega)
  ended := by
    rw [show 7 + 32 * s.cfg.H + 3 = 10 + 32 * s.cfg.H by omega, h.ended.1]

/-- The path from a start edge is a service that reaches ADVANCE as the code captured there says. -/
theorem exists_serviceSpan {s : State} (hinv : s.Inv) (hgo : s.go = true) :
    ∃ n, n + 3 ≤ 10 + 32 * s.cfg.H ∧ ServiceSpan (path shownWord s)
      (if s.cfg.selMap.table s.captured = none then .select else .txlWait) n := by
  have hst := st_idle_of_go hgo
  obtain ⟨-, hb, -⟩ := quiet_of_inv_idle hinv hst
  obtain ⟨hc, -, hidx, -⟩ := hinv
  obtain ⟨-, -, hH, -⟩ := legal_parts hc
  cases htable : s.cfg.selMap.table s.captured with
  | none =>
    have hserve : SilentService (path shownWord s) s := silentService_path hidx hgo hb fun u hcfg _ hcode => by
      rw [shownWord, formMux_fetched, hcfg, hcode, htable]
    exact ⟨3, by omega, by rw [if_pos rfl]; exact hserve.span hst⟩
  | some t =>
    obtain ⟨w, hw⟩ := romRead_some hc t hidx
    have hserve : DataService (path shownWord s) s w := dataService_path hH hidx hgo hb fun u hcfg _ hui hcode => by
      rw [shownWord_of_table (t := t) (by rw [hcfg, hcode, htable]), hcfg, hui, hw]
    exact ⟨7 + 32 * s.cfg.H, by omega, by rw [if_neg (Option.some_ne_none t)]; exact hserve.span hst⟩

/-- Settles O52: the service's only EXIT edge is its last, and in IDLE the ADVANCE edges are as many as the EXIT edges. -/
theorem everyServiceAdvancesOnce : Obligations.EveryServiceAdvancesOnce := by
  intro s hinv hgo hr
  obtain ⟨n, hn, hspan⟩ := exists_serviceSpan hinv hgo
  obtain ⟨hc, -, hidx, -⟩ := hinv
  have hcount := countEdges_trace hc hidx (n := n + 3) fun k hk => hr k (by omega)
  have hexit : Nat.count (fun k => (path shownWord s k).ctl.st = .exit) (n + 3) = 1 :=
    count_eq_one (by omega) hspan.exits
  have hadvance := (count_advance_eq_of_idle (st_idle_of_go hgo) hspan.ended).trans hexit
  refine ⟨n, path shownWord s (n - 1), path shownWord s (n + 3), hn, run_eq_path hc hidx hr hn, hspan.ended, ?_, ?_,
    hspan.pos, run_eq_path hc hidx hr (by omega), hspan.before⟩
  · simpa only [hcount, decide_eq_true_eq] using hexit
  · simpa only [hcount, decide_eq_true_eq] using hadvance

/-! ## The index counts the services (R117, first half) -/

/-- An edge adds one to the index in ADVANCE, modulo `L`, and nothing elsewhere. -/
theorem edge_idx {s : State} (h : s.ctl.idx < s.cfg.L) (m : Option Word) :
    (s.edge m).ctl.idx = (s.ctl.idx + if s.ctl.st = .advance then 1 else 0) % s.cfg.L := by
  by_cases hst : s.ctl.st = .advance
  · rw [edge_ctl, next_advance hst, if_pos hst, ← advanceIdx_eq_mod h]
  · rw [edge_ctl, next_idx_of_ne_advance hst, if_neg hst, Nat.add_zero, Nat.mod_eq_of_lt h]

theorem path_idx {f : State → Option Word} {s : State} (h : s.ctl.idx < s.cfg.L) (n : Nat) :
    (path f s n).ctl.idx = (s.ctl.idx + Nat.count (fun k => (path f s k).ctl.st = .advance) n) % s.cfg.L := by
  induction n with
  | zero => rw [path_zero, Nat.count_zero, Nat.add_zero, Nat.mod_eq_of_lt h]
  | succ n ih =>
    have hlt : (path f s n).ctl.idx < (path f s n).cfg.L := by
      rw [path_cfg]
      exact path_idx_lt h n
    rw [path_succ, edge_idx hlt, ih, path_cfg, Nat.mod_add_mod, Nat.count_succ, Nat.add_assoc]

/-- A run from reset without a later reset is a path from an idle state with index 0. -/
theorem run_of_atReset {s u : State} {n : Nat} (hc : s.cfg.legal = true) (h : s.atReset) (hr : s.noReset n)
    (hu : run n s = .next u) :
    s.Inv ∧ s.ctl.st = .idle ∧ s.ctl.idx = 0 ∧ s.tmr.tickPend = false ∧ u = path shownWord s n := by
  have hinv := inv_of_atReset hc h
  have ⟨_, _, hidx, _⟩ := hinv
  obtain ⟨hctl, htmr, -⟩ := h
  have hpath := run_eq_path hc hidx hr le_rfl
  exact ⟨hinv, by rw [hctl]; rfl, by rw [hctl]; rfl, by rw [htmr]; rfl, Host.Outcome.next.inj (hu.symm.trans hpath)⟩

/-- Settles O56: the index counts the ADVANCE edges, which in IDLE are as many as the EXIT edges. -/
theorem indexCountsCompletedServices : Obligations.IndexCountsCompletedServices := by
  intro s u n hc hreset hr hu hidle
  obtain ⟨hinv, hst, hzero, -, rfl⟩ := run_of_atReset hc hreset hr hu
  obtain ⟨-, -, hidx, -⟩ := hinv
  rw [path_idx hidx, hzero, Nat.zero_add, count_advance_eq_of_idle hst hidle, completedServices,
    countEdges_trace hc hidx hr]
  simp only [decide_eq_true_eq]

/-! ## The index counts the expiries (R117, second half) -/

/-- The overrun flag stays clear exactly when it was and an expiry finds no tick pending and no service running
(60_exceptions.md R188). -/
theorem overrunNext_eq_false_iff (s : State) :
    s.overrunNext = false ↔
      s.tmr.overrunQ = false ∧ (s.expire = true → s.tmr.tickPend = false ∧ s.ctl.st = .idle) := by
  unfold State.overrunNext
  cases s.expire <;> simp

/-- A flag clear after `n` edges was clear before. -/
theorem path_not_overrun {f : State → Option Word} {s : State} {n k : Nat}
    (h : (path f s n).tmr.overrunQ = false) (hk : k ≤ n) : (path f s k).tmr.overrunQ = false := by
  induction n with
  | zero => rwa [Nat.le_zero.1 hk]
  | succ n ih =>
    rcases Nat.le_succ_iff.1 hk with hle | rfl
    · exact ih ((overrunNext_eq_false_iff _).1 h).1 hle
    · exact h

/-- A running service returns to IDLE by its EXIT edge alone. -/
theorem next_eq_idle_iff {c : Scheduler} (hl : c.st.isIllegal = false) (hst : c.st ≠ .idle) (L : Nat) (go busy : Bool)
    (mux : Option Word) : (c.next L go busy mux).st = .idle ↔ c.st = .exit := by
  cases hc : c.st
  case idle => contradiction
  case assertCs => simp [next_assertCs hc]
  case select => rw [next_select hc]; cases mux <;> simp [Scheduler.dispatch]
  case txhLoad => simp [next_txhLoad hc]
  case txhWait => rw [next_txhWait hc]; cases busy <;> simp [hc]
  case txlLoad => simp [next_txlLoad hc]
  case txlWait => rw [next_txlWait hc]; cases busy <;> simp [hc]
  case advance => simp [next_advance hc]
  case deassertCs => simp [next_deassertCs hc]
  case exit => simp [next_exit hc, Scheduler.leave]
  case illegal k => simp [hc, Phase.isIllegal] at hl

theorem go_false_of_not_pending {s : State} (h : s.tmr.tickPend = false) : s.go = false := by
  simp [State.go, h]

/-- Whether a service runs. -/
def State.running (s : State) : Bool := decide (s.ctl.st ≠ .idle)

/-- How many ticks have expired whose service is not completed: the pending one and the one in service. -/
def State.owed (s : State) : Nat := s.tmr.tickPend.toNat + s.running.toNat

/-- While a tick pends in IDLE only, at most one is owed. -/
theorem owed_eq {s : State} (h : s.tmr.tickPend = true → s.ctl.st = .idle) :
    s.owed = if s.tmr.tickPend = true ∨ s.ctl.st ≠ .idle then 1 else 0 := by
  unfold State.owed State.running
  by_cases hp : s.tmr.tickPend = true
  · simp [hp, h hp]
  · by_cases hst : s.ctl.st = .idle <;> simp [hp, hst]

/-- A service begins to run at a start edge and ends at its EXIT edge. -/
theorem edge_running {s : State} (hl : s.ctl.st.isIllegal = false) (m : Option Word) :
    (s.edge m).running.toNat + (if s.ctl.st = .exit then 1 else 0) = s.running.toNat + s.go.toNat := by
  unfold State.running
  by_cases hst : s.ctl.st = .idle
  · rw [edge_ctl, next_idle hst]
    cases s.go <;> simp [Scheduler.enter, hst]
  · simp only [edge_ctl, ne_eq, next_eq_idle_iff hl hst, go_false_of_ne_idle hst]
    by_cases hexit : s.ctl.st = .exit <;> simp [hexit, hst]

/-- Without an overrun a tick begins to be pending at an expiry and ends at a start edge. -/
theorem edge_tickPend {s : State} (h : s.overrunNext = false) (m : Option Word) :
    (s.edge m).tmr.tickPend.toNat + s.go.toNat = s.tmr.tickPend.toNat + (if s.expire = true then 1 else 0) := by
  obtain ⟨-, hexpire⟩ := (overrunNext_eq_false_iff s).1 h
  rw [edge_tmr, timerNext_tickPend, State.tickPendNext]
  cases hp : s.tmr.tickPend
  · rw [go_false_of_not_pending hp]
    cases s.expire <;> rfl
  · have he : s.expire = false := Bool.eq_false_iff.2 fun he => nomatch hp.symm.trans (hexpire he).1
    rw [he]
    cases s.go <;> rfl

/-- An edge without an overrun keeps it so that a tick is pending in IDLE alone. -/
theorem edge_idle_of_pending {s : State} (h : s.overrunNext = false) (hidle : s.tmr.tickPend = true → s.ctl.st = .idle)
    (m : Option Word) (hpend : (s.edge m).tmr.tickPend = true) : (s.edge m).ctl.st = .idle := by
  obtain ⟨-, hexpire⟩ := (overrunNext_eq_false_iff s).1 h
  have hwaits : s.ctl.st = .idle ∧ s.go = false := by
    rw [edge_tmr, timerNext_tickPend, State.tickPendNext, Bool.or_eq_true, Bool.and_eq_true, Bool.not_eq_true'] at hpend
    rcases hpend with he | ⟨hp, hgo⟩
    · obtain ⟨hp, hst⟩ := hexpire he
      exact ⟨hst, go_false_of_not_pending hp⟩
    · exact ⟨hidle hp, hgo⟩
  obtain ⟨hst, hgo⟩ := hwaits
  rw [edge_ctl, next_idle hst, hgo]
  exact hst

/-- Without an overrun the expiries of a path are its EXIT edges and the ticks still owed. -/
theorem count_expire_eq {f : State → Option Word} {s : State} {n : Nat} (hinv : s.Inv) (howed : s.owed = 0)
    (hno : (path f s n).tmr.overrunQ = false) :
    (path f s n).owed + Nat.count (fun k => (path f s k).ctl.st = .exit) n =
      Nat.count (fun k => (path f s k).expire = true) n := by
  rw [count_balance (φ := fun k => (path f s k).owed) (p := fun k => (path f s k).expire = true), path_zero, howed,
    Nat.zero_add]
  intro k hk
  obtain ⟨-, hl, -⟩ := path_inv (f := f) hinv k
  have hrunning := edge_running hl (f (path f s k))
  have htick := edge_tickPend (path_not_overrun hno hk) (f (path f s k))
  rw [path_succ]
  unfold State.owed
  omega

/-- Along a path without an overrun no service runs while a tick is pending. -/
theorem path_idle_of_pending {f : State → Option Word} {s : State} {n : Nat} (hst : s.ctl.st = .idle)
    (hno : (path f s n).tmr.overrunQ = false) (hpend : (path f s n).tmr.tickPend = true) :
    (path f s n).ctl.st = .idle := by
  induction n with
  | zero => exact hst
  | succ n ih => exact edge_idle_of_pending hno (ih (path_not_overrun hno n.le_succ)) _ hpend

/-- Settles O57: without an overrun at most one tick is owed, and in a quiet IDLE state none. -/
theorem indexCountsExpiriesWithoutOverrun : Obligations.IndexCountsExpiriesWithoutOverrun := by
  intro s u n hc hreset hr hu hno
  obtain ⟨hinv, hst, -, hpend, hpath⟩ := run_of_atReset hc hreset hr hu
  have ⟨_, _, hidx, _⟩ := hinv
  have howed : s.owed = 0 := by simp [State.owed, State.running, hst, hpend]
  have hexpiries : expiries (trace n s) = completedServices (trace n s) +
      (if u.tmr.tickPend = true ∨ u.ctl.st ≠ .idle then 1 else 0) := by
    subst hpath
    rw [expiries, completedServices, countEdges_trace hc hidx hr, countEdges_trace hc hidx hr,
      ← count_expire_eq hinv howed hno, owed_eq (path_idle_of_pending hst hno), Nat.add_comm]
    simp only [decide_eq_true_eq]
  refine ⟨hexpiries, fun hidle hquiet => ?_⟩
  rw [hexpiries, if_neg (by simp [hidle, hquiet]), Nat.add_zero]
  exact indexCountsCompletedServices s u n hc hreset hr hu hidle

end Sys2Proof.Machine

/-! # The scheduler: what each service state does, whole services, and what a service depends on (42_scheduler.md) -/

namespace Sys2Proof.Machine

/-! ## The edge of a known service state -/

/-- Outside SELECT the edge is the same under every form (R129). -/
theorem exec_of_st {s : State} {p : Phase} (hst : s.ctl.st = p) (hp : p ≠ .select) (i : Instr) :
    exec i s = .next (s.edge none) :=
  exec_of_ne_select (hst ▸ hp) i none

/-- An idle engine holds where no start command is issued (43_serial_tx.md R164). -/
theorem edge_ser_of_idle {s : State} {p : Phase} (hst : s.ctl.st = p)
    (hp : p.isIllegal = false ∧ p ≠ .txhLoad ∧ p ≠ .txlLoad) (hb : s.ser.busy = false) (m : Option Word) :
    (s.edge m).ser = s.ser := by
  subst hst
  exact serial_next_idle hp.1 ((txStart_eq_none_iff _).2 hp.2) hb

theorem edge_ser_of_txhLoad {s : State} (hst : s.ctl.st = .txhLoad) (m : Option Word) :
    (s.edge m).ser = Serial.start s.cfg.H (hiByte s.ctl.wordQ) :=
  serial_next_start (by rw [hst]; rfl) (by rw [Scheduler.txStart, hst])

theorem edge_ser_of_txlLoad {s : State} (hst : s.ctl.st = .txlLoad) (m : Option Word) :
    (s.edge m).ser = Serial.start s.cfg.H (loByte s.ctl.wordQ) :=
  serial_next_start (by rw [hst]; rfl) (by rw [Scheduler.txStart, hst])

theorem edge_ser_of_illegal {s : State} {k : Fin 6} (hst : s.ctl.st = .illegal k) (m : Option Word) :
    (s.edge m).ser = s.ser.forceIdle :=
  serial_next_illegal (by rw [hst]; rfl)

theorem formMux_of_table {i : Instr} {t : Table} (h : i.table = some t) (s : State) :
    formMux i s = romRead s.cfg t s.ctl.idx := by
  rw [formMux, h]

theorem formMux_of_table_eq_none {i : Instr} (h : i.table = none) (s : State) : formMux i s = none := by
  rw [formMux, h]

/-- A step without reset is an edge with the decoded form's word. -/
theorem step_eq_edge {s t : State} (hr : s.pins.rst = false) (h : step s = .next t) : t = s.edge (shownWord s) :=
  exec_next ((step_exec hr).symm.trans h)

/-! ## The start condition (R123) -/

theorem go_eq_true_iff (s : State) :
    s.go = true ↔ s.ctl.st = .idle ∧ s.tmr.tickPend = true ∧ s.pins.tickIe = true ∧ s.pins.gie = true := by
  simp [State.go, and_assoc]

theorem go_of_idle {s : State} (hst : s.ctl.st = .idle) : s.go = (s.tmr.tickPend && s.pins.tickIe && s.pins.gie) := by
  simp [State.go, hst]

/-- The pending flag is consumed at a start edge, unless an expiry falls on it (60_exceptions.md R197). -/
theorem tickPendNext_of_go {s : State} (h : s.go = true) : s.tickPendNext = s.expire := by
  simp [State.tickPendNext, h]

/-- Without the start condition a pending tick stays pending. -/
theorem tickPendNext_of_not_go {s : State} (h : s.go = false) (hp : s.tmr.tickPend = true) : s.tickPendNext = true := by
  simp [State.tickPendNext, h, hp]

theorem edge_ctl_of_go {s : State} (h : s.go = true) (m : Option Word) : (s.edge m).ctl = s.ctl.enter := by
  rw [edge_ctl, next_idle (st_idle_of_go h), h, if_pos rfl]

theorem edge_ctl_of_idle {s : State} (hst : s.ctl.st = .idle) (h : s.go = false) (m : Option Word) :
    (s.edge m).ctl = s.ctl := by
  rw [edge_ctl, next_idle hst, h, if_neg Bool.false_ne_true]

/-! ## Each state of a service (R127 to R137) -/

/-- Settles O25: with the start condition the edge enters the service and consumes the pending flag. -/
theorem pendingEnabledTickEntersService : Obligations.PendingEnabledTickEntersService := by
  intro i s hst hb hp hie hgie
  have hgo : s.go = true := (go_eq_true_iff s).2 ⟨hst, hp, hie, hgie⟩
  exact ⟨s.edge none, exec_of_st hst (by decide) i, edge_ctl_of_go hgo none,
    edge_ser_of_idle hst (by decide) hb none, tickPendNext_of_go hgo, edge_ticksTo s none⟩

/-- Settles O26: where an input of the start condition is 0, the edge keeps the scheduler, the engine and the tick. -/
theorem idleHoldsWithoutStartCondition : Obligations.IdleHoldsWithoutStartCondition := by
  intro i s hst hb hoff
  have hgo : s.go = false := by
    rw [go_of_idle hst]
    rcases hoff with h | h | h <;> simp [h]
  exact ⟨s.edge none, exec_of_st hst (by decide) i, edge_ctl_of_idle hst hgo none,
    edge_ser_of_idle hst (by decide) hb none, tickPendNext_of_not_go hgo, edge_ticksTo s none⟩

/-- Settles O27: the ASSERT_CS edge lowers chip-select, and the idle engine holds. -/
theorem assertCsOpensFrame : Obligations.AssertCsOpensFrame :=
  fun i s hst hb => ⟨s.edge none, exec_of_st hst (by decide) i, next_assertCs hst,
    edge_ser_of_idle hst (by decide) hb none, edge_ticksTo s none⟩

/-- Settles O29: the silent form shows no word, and SELECT without a word goes to ADVANCE. -/
theorem silentFormSkipsTheFetch : Obligations.SilentFormSkipsTheFetch :=
  fun c s hst hb => ⟨s.edge none, exec_silent c s, next_select hst, edge_ser_of_idle hst (by decide) hb none,
    edge_ticksTo s none⟩

/-- Settles O30: the start command is the high byte, and under the invariant only the WAIT states have a busy engine. -/
theorem txhLoadStartsHighByte : Obligations.TxhLoadStartsHighByte := by
  intro i s hst
  refine ⟨⟨s.edge none, exec_of_st hst (by decide) i, next_txhLoad hst, edge_ser_of_txhLoad hst none,
    edge_ticksTo s none⟩, fun ⟨_, _, _, _, _, _, hwait, _⟩ => ?_⟩
  rw [hst] at hwait
  exact Bool.eq_false_iff.2 fun hb => nomatch hwait hb

/-- Settles O31: the start command is the low byte. -/
theorem txlLoadStartsLowByte : Obligations.TxlLoadStartsLowByte :=
  fun i s hst => ⟨s.edge none, exec_of_st hst (by decide) i, next_txlLoad hst, edge_ser_of_txlLoad hst none,
    edge_ticksTo s none⟩

/-- Settles O32: both WAIT states hold while the engine is busy, and each moves on to its own next state. -/
theorem waitStatesWaitForTheEngine : Obligations.WaitStatesWaitForTheEngine := by
  intro i s hst
  have hwaits : s.ctl.st.waits = true := by rcases hst with h | h <;> rw [h] <;> rfl
  have hselect : s.ctl.st ≠ .select := by rcases hst with h | h <;> rw [h] <;> decide
  refine ⟨s.edge none, exec_of_ne_select hselect i none, edge_ticksTo s none, fun hb => ?_, fun hb => ?_⟩
  · rw [edge_ctl, hb]
    exact next_eq_self_of_waits hwaits ..
  · rcases hst with h | h
    · exact ⟨edge_ser_of_idle h (by decide) hb none, by simp [next_txhWait h, hb, h]⟩
    · exact ⟨edge_ser_of_idle h (by decide) hb none, by simp [next_txlWait h, hb, h]⟩

/-- In its range, the advance wraps at `L - 1` and adds one elsewhere, the width taking nothing away. -/
theorem advanceIdx_of_lt {L i : Nat} (h : i < L) : advanceIdx L i = if i = L - 1 then 0 else i + 1 := by
  by_cases htop : i = L - 1
  · rw [advanceIdx, if_pos htop, if_pos htop]
  · rw [advanceIdx_eq_mod h, Nat.mod_eq_of_lt (by omega), if_neg htop]

/-- Settles O33: the index written is the advance of the index, and TXL_WAIT with the byte out and SELECT under the silent
form both lead to ADVANCE. -/
theorem advanceMovesIndexModuloL : Obligations.AdvanceMovesIndexModuloL := by
  refine ⟨fun i s hst hb hidx => ⟨s.edge none, exec_of_st hst (by decide) i, ?_, ?_,
    edge_ser_of_idle hst (by decide) hb none, edge_ticksTo s none⟩, fun i s hst hb => ?_, fun c s hst => ?_⟩
  · rw [edge_ctl, next_advance hst, advanceIdx_of_lt hidx]
  · rw [edge_ctl, next_advance hst, advanceIdx_eq_mod hidx]
  · exact ⟨s.edge none, exec_of_st hst (by decide) i, by rw [edge_ctl, next_txlWait hst, hb]; rfl⟩
  · exact ⟨s.edge none, exec_silent c s, by rw [edge_ctl, next_select hst]; rfl⟩

/-- Settles O34: the DEASSERT_CS edge raises chip-select, and the idle engine holds. -/
theorem deassertCsClosesFrame : Obligations.DeassertCsClosesFrame :=
  fun i s hst hb => ⟨s.edge none, exec_of_st hst (by decide) i, next_deassertCs hst,
    edge_ser_of_idle hst (by decide) hb none, edge_ticksTo s none⟩

/-- Settles O35: the EXIT edge returns to IDLE, from which the start condition enters the next service. -/
theorem exitEndsService : Obligations.ExitEndsService := by
  intro i s hst hb
  have hleave : (s.edge none).ctl = s.ctl.leave := next_exit hst
  refine ⟨s.edge none, exec_of_st hst (by decide) i, hleave, edge_ser_of_idle hst (by decide) hb none,
    edge_ticksTo s none, fun j hp hie hgie => ?_⟩
  have hidle : (s.edge none).ctl.st = .idle := by rw [hleave]; rfl
  have hgo : (s.edge none).go = true := (go_eq_true_iff _).2 ⟨hidle, hp, hie, hgie⟩
  exact ⟨_, exec_of_st hidle (by decide) j, by rw [edge_ctl_of_go hgo]; rfl⟩

/-- Settles O36: the edge of an illegal state returns to IDLE and forces the engine idle. -/
theorem illegalStateRecovers : Obligations.IllegalStateRecovers :=
  fun i s _ hst => ⟨s.edge none, exec_of_st hst (by simp) i, next_illegal hst, edge_ser_of_illegal hst none,
    edge_ticksTo s none⟩

/-! ## The next state and the two registers of the frame (R125, R126) -/

/-- A form that answers a next state at SELECT goes to TXH_LOAD if it has a table and to ADVANCE if it has none. -/
theorem st_of_exec_select {i : Instr} {s u : State} (hst : s.ctl.st = .select) (hu : exec i s = .next u) :
    u.ctl.st = if i.table = none then .advance else .txhLoad := by
  rw [exec_next hu, edge_ctl, next_select hst]
  cases hi : i.table with
  | none => rw [formMux_of_table_eq_none hi]; rfl
  | some t =>
    rw [formMux_of_table hi]
    cases hw : romRead s.cfg t s.ctl.idx with
    | none => rw [dataFormStopsWhereRomHasNoWord i t s hi hst hw] at hu; contradiction
    | some w => rfl

/-- Settles O21, state by state. -/
theorem nextStateTable : Obligations.NextStateTable := by
  intro i s u hu
  by_cases hsel : s.ctl.st = .select
  · simpa only [hsel] using st_of_exec_select hsel hu
  rw [exec_next hu, edge_ctl]
  cases hst : s.ctl.st
  case select => contradiction
  case idle =>
    rw [next_idle hst, go_of_idle hst, apply_ite Scheduler.st, hst]
    rfl
  case assertCs => rw [next_assertCs hst]
  case txhLoad => rw [next_txhLoad hst]
  case txhWait => rw [next_txhWait hst, apply_ite Scheduler.st, hst]
  case txlLoad => rw [next_txlLoad hst]
  case txlWait => rw [next_txlWait hst, apply_ite Scheduler.st, hst]
  case advance => rw [next_advance hst]
  case deassertCs => rw [next_deassertCs hst]
  case exit => rw [next_exit hst, Scheduler.leave]
  case illegal k => rw [next_illegal hst]

/-- Settles O22, state by state: only the start edge, EXIT and an illegal code write the strobe, and only ASSERT_CS,
DEASSERT_CS and an illegal code write chip-select. -/
theorem onlyWritesOfStrobeAndChipSelect : Obligations.OnlyWritesOfStrobeAndChipSelect := by
  intro s u hr hu
  rw [step_eq_edge hr hu, edge_ctl]
  cases hst : s.ctl.st
  case idle =>
    rw [next_idle hst, go_of_idle hst, apply_ite Scheduler.dbgQ, apply_ite Scheduler.csNQ]
    exact ⟨rfl, ite_self _⟩
  case assertCs => rw [next_assertCs hst]; exact ⟨rfl, rfl⟩
  case select => rw [next_select hst]; cases shownWord s <;> exact ⟨rfl, rfl⟩
  case txhLoad => rw [next_txhLoad hst]; exact ⟨rfl, rfl⟩
  case txhWait => rw [next_txhWait hst]; cases s.ser.busy <;> exact ⟨rfl, rfl⟩
  case txlLoad => rw [next_txlLoad hst]; exact ⟨rfl, rfl⟩
  case txlWait => rw [next_txlWait hst]; cases s.ser.busy <;> exact ⟨rfl, rfl⟩
  case advance => rw [next_advance hst]; exact ⟨rfl, rfl⟩
  case deassertCs => rw [next_deassertCs hst]; exact ⟨rfl, rfl⟩
  case exit => rw [next_exit hst]; exact ⟨rfl, rfl⟩
  case illegal k => rw [next_illegal hst]; exact ⟨rfl, rfl⟩

/-- Settles O53: without the start condition no edge leads to ASSERT_CS, and outside IDLE only EXIT leads to IDLE. -/
theorem servicesDoNotNest : Obligations.ServicesDoNotNest := by
  intro s u hr hl hu
  rw [step_eq_edge hr hu]
  refine ⟨fun hassert => (go_eq_true_iff s).1 ?_, fun hidle => ?_⟩
  · by_contra hgo
    rw [edge_ctl, Bool.eq_false_iff.2 hgo] at hassert
    exact next_ne_assertCs_of_not_go hassert
  · by_cases hst : s.ctl.st = .idle
    · refine .inr ⟨hst, Bool.eq_false_iff.2 fun hgo => ?_⟩
      rw [edge_ctl_of_go hgo] at hidle
      contradiction
    · exact .inl ((next_eq_idle_iff hl hst ..).1 hidle)

/-! ## The code a service reads (R129, R138, R139) -/

/-- A settled bit is captured as it stands. -/
theorem captureSel_getLsbD {p : Pins} {k : Nat} (h : p.unsettled.getLsbD k = false) (draw : Code) (hk : k < 4) :
    (captureSel p draw).getLsbD k = p.sel.getLsbD k := by
  unfold captureSel
  split
  · rfl
  · rw [BitVec.getLsbD_or, BitVec.getLsbD_and, BitVec.getLsbD_and, BitVec.getLsbD_not, h]
    simp [hk]

/-- Settles O47: the edge moves the first stage on and captures the settled bits. -/
theorem synchronizerCapturesSettledBits : Obligations.SynchronizerCapturesSettledBits := by
  intro s u hr hu
  rw [step_eq_edge hr hu]
  exact ⟨rfl, fun k hk h => captureSel_getLsbD h _ hk, fun h => if_pos h⟩

/-- Under an undefined code a step's form shows no word. -/
theorem shownWord_of_table_eq_none {s : State} (h : s.cfg.selMap.table s.sync2 = none) : shownWord s = none := by
  rw [shownWord, formMux_fetched, h]

/-- Two edges without reset bring the captured code to the second stage. -/
theorem run_two_sync2 {s u : State} (hr : s.noReset 2) (hu : run 2 s = .next u) : u.sync2 = s.captured := by
  obtain ⟨t, ht, hu⟩ := run_succ_inv hu
  obtain ⟨v, hv, hu⟩ := run_succ_inv hu
  cases hu
  have hrt := noReset_first (noReset_step ht hr)
  rw [step_eq_edge hrt hv, edge_sync2, step_eq_edge (noReset_first hr) ht, edge_sync1]

/-- Settles O20: the word shown at SELECT is that of the code in `sync2`, and no other state reads the word. -/
theorem selectReadsTheCode : Obligations.SelectReadsTheCode := by
  refine ⟨fun s hc hidx hst hr => ?_, fun s i j hst => ?_, fun s u => run_two_sync2⟩
  · have hctl : (s.edge (shownWord s)).ctl = s.ctl.dispatch (shownWord s) := next_select hst
    refine ⟨s.edge (shownWord s), (step_exec hr).trans (exec_completes hc hidx _), ?_⟩
    rw [hctl]
    cases htable : s.cfg.selMap.table s.sync2 with
    | none => rw [shownWord_of_table_eq_none htable]; rfl
    | some t =>
      obtain ⟨w, hw⟩ := romRead_some hc t hidx
      exact ⟨w, hw, by rw [shownWord_of_table htable, hw]; rfl⟩
  · rw [exec_of_ne_select hst i none, exec_of_ne_select hst j none]

/-! ## A running service and the pins (R147) -/

/-- Two machines alike in what a running service still depends on: the parameters, the scheduler, the engine, and the
code SELECT has yet to read. -/
structure ServiceAlike (s s' : State) : Prop where
  cfg : s'.cfg = s.cfg
  ctl : s'.ctl = s.ctl
  ser : s'.ser = s.ser
  code1 : s.ctl.st = .assertCs → s'.sync1 = s.sync1
  code2 : s.ctl.st = .select → s'.sync2 = s.sync2

/-- A form that answers a next state answers one in every state with the same parameters and scheduler, and shows the same
word there. -/
theorem exec_of_alike {i : Instr} {s s' t : State} (hcfg : s'.cfg = s.cfg) (hctl : s'.ctl = s.ctl)
    (ht : exec i s = .next t) : exec i s' = .next (s'.edge (formMux i s)) := by
  have hmux : formMux i s' = formMux i s := by rw [formMux, formMux, hcfg, hctl]
  rcases exec_eq i s' with h | ⟨-, hsel, ⟨t, hi⟩, hnone⟩
  · rw [h, hmux]
  · rw [hmux, formMux_of_table hi] at hnone
    rw [dataFormStopsWhereRomHasNoWord i t s hi (hctl ▸ hsel) hnone] at ht
    contradiction

namespace ServiceAlike

variable {s s' : State}

/-- Alike machines take the same edge: SELECT reads the same code, and no other state reads any. -/
theorem same_edge (h : ServiceAlike s s') (hr : s.pins.rst = false) (hr' : s'.pins.rst = false) {t : State}
    (ht : step s = .next t) : ∃ m, t = s.edge m ∧ step s' = .next (s'.edge m) := by
  refine ⟨shownWord s, step_eq_edge hr ht, ?_⟩
  rw [step_exec hr] at ht
  rw [step_exec hr']
  by_cases hsel : s.ctl.st = .select
  · have hform : s'.fetched = s.fetched := by rw [State.fetched, State.fetched, h.cfg, h.code2 hsel]
    rw [hform]
    exact exec_of_alike h.cfg h.ctl ht
  · exact exec_of_ne_select (h.ctl ▸ hsel) _ _

/-- An edge of a running service keeps alike machines alike: `go`, the only input from the pins, is 0 there. -/
theorem after_edge (h : ServiceAlike s s') (hst : s.ctl.st ≠ .idle) (m : Option Word) :
    ServiceAlike (s.edge m) (s'.edge m) where
  cfg := h.cfg
  ctl := by
    rw [edge_ctl, edge_ctl, go_false_of_ne_idle hst, go_false_of_ne_idle (h.ctl ▸ hst), h.cfg, h.ctl, h.ser]
  ser := by rw [edge_ser, edge_ser, h.cfg, h.ctl, h.ser]
  code1 hassert := by
    rw [edge_ctl, go_false_of_ne_idle hst] at hassert
    exact absurd hassert next_ne_assertCs_of_not_go
  code2 hselect := h.code1 (from_assertCs_of_next_select hselect)

/-- Alike machines stay alike as long as the service lasts. -/
theorem after_run {n : Nat} {u : State} (h : ServiceAlike s s') (hr : s.noReset n) (hr' : s'.noReset n)
    (hlasts : ∀ k v, k < n → run k s = .next v → v.ctl.st ≠ .idle) (hu : run n s = .next u) :
    ∃ u', run n s' = .next u' ∧ ServiceAlike u u' := by
  induction n generalizing s s' with
  | zero => cases hu; exact ⟨s', rfl, h⟩
  | succ n ih =>
    obtain ⟨t, ht, hu⟩ := run_succ_inv hu
    obtain ⟨m, rfl, ht'⟩ := h.same_edge (noReset_first hr) (noReset_first hr') ht
    have hst : s.ctl.st ≠ .idle := hlasts 0 s n.succ_pos rfl
    rw [run_succ ht']
    exact ih (h.after_edge hst m) (noReset_step ht hr) (noReset_step ht' hr')
      (fun k v hk hv => hlasts (k + 1) v (Nat.succ_lt_succ hk) ((run_succ ht k).trans hv)) hu

end ServiceAlike

/-- Settles O54: two such machines take the same edges as long as the service lasts. -/
theorem runningServiceIgnoresPins : Obligations.RunningServiceIgnoresPins := by
  intro s s' u n hcfg hctl hser hcode1 hcode2 hr hr' hlasts hu
  obtain ⟨u', hu', halike⟩ := ServiceAlike.after_run ⟨hcfg, hctl, hser, hcode1, hcode2⟩ hr hr' hlasts hu
  exact ⟨u', hu', halike.ctl, halike.ser⟩

/-! ## The registers of a data service, edge by edge (R140 to R142) -/

/-- From its fetch to ADVANCE a data service has its frame open and its word latched, in a sending state or in ADVANCE. -/
theorem DataService.ctl_inFrame {x : Nat → State} {s : State} {w : Word} (h : DataService x s w) {k : Nat}
    (hlo : 3 ≤ k) (hhi : k ≤ 7 + 32 * s.cfg.H) :
    ∃ p, (p.sends = true ∨ p = .advance) ∧ (x k).ctl = inFrame s.ctl w p := by
  rcases dataService_cases (H := s.cfg.H) (k := k) (by omega) with
    rfl | rfl | rfl | rfl | ⟨n, hn, rfl⟩ | rfl | ⟨n, hn, rfl⟩ | rfl | rfl | rfl | rfl
  · omega
  · omega
  · omega
  · exact ⟨_, .inl rfl, h.fetched.1⟩
  · exact ⟨_, .inl rfl, (h.high n hn).1⟩
  · exact ⟨_, .inl rfl, h.between.1⟩
  · exact ⟨_, .inl rfl, (h.low n hn).1⟩
  · exact ⟨_, .inr rfl, h.sent.1⟩
  · omega
  · omega
  · omega

/-- The scheduler's registers at edge `g + k` of a data service that starts at edge `g`. -/
theorem DataService.ctl_at {x : Nat → State} {s : State} {w : Word} (h : DataService x s w) (hcs : s.ctl.csNQ = true)
    {k : Nat} (hk : k ≤ 9 + 32 * s.cfg.H) :
    (x (k + 1)).ctl.dbgQ = decide (k < 9 + 32 * s.cfg.H) ∧
    (x (k + 1)).ctl.csNQ = decide (k < 1 ∨ 8 + 32 * s.cfg.H ≤ k) ∧
    (x (k + 1)).ctl.wordQ = (if k < 2 then s.ctl.wordQ else w) ∧
    (x (k + 1)).ctl.idx = (if k < 7 + 32 * s.cfg.H then s.ctl.idx else (s.ctl.idx + 1) % s.cfg.L) ∧
    ((x (k + 1)).ctl.st = .idle ↔ k = 9 + 32 * s.cfg.H) := by
  have hcases : k = 0 ∨ k = 1 ∨ (2 ≤ k ∧ k ≤ 6 + 32 * s.cfg.H) ∨ k = 7 + 32 * s.cfg.H ∨ k = 8 + 32 * s.cfg.H ∨
      k = 9 + 32 * s.cfg.H := by omega
  rcases hcases with rfl | rfl | ⟨hlo, hhi⟩ | rfl | rfl | rfl
  · rw [h.start.1]
    exact ⟨(decide_eq_true (by omega)).symm, hcs.trans (decide_eq_true (by omega)).symm, (if_pos (by omega)).symm,
      (if_pos (by omega)).symm, iff_of_false (by simp) (by omega)⟩
  · rw [h.opened.1]
    exact ⟨(decide_eq_true (by omega)).symm, (decide_eq_false (by omega)).symm, (if_pos (by omega)).symm,
      (if_pos (by omega)).symm, iff_of_false (by simp) (by omega)⟩
  · obtain ⟨p, hp, hctl⟩ := h.ctl_inFrame (k := k + 1) (by omega) (by omega)
    obtain ⟨hidle, -⟩ := Phase.sends_or_advance_ne hp
    rw [hctl]
    exact ⟨(decide_eq_true (by omega)).symm, (decide_eq_false (by omega)).symm, (if_neg (by omega)).symm,
      (if_pos (by omega)).symm, iff_of_false hidle (by omega)⟩
  · rw [show 7 + 32 * s.cfg.H + 1 = 8 + 32 * s.cfg.H by omega, h.advanced.1]
    exact ⟨(decide_eq_true (by omega)).symm, (decide_eq_false (by omega)).symm, (if_neg (by omega)).symm,
      (if_neg (by omega)).symm, iff_of_false (by simp [inFrame]) (by omega)⟩
  · rw [show 8 + 32 * s.cfg.H + 1 = 9 + 32 * s.cfg.H by omega, h.closed.1]
    exact ⟨(decide_eq_true (by omega)).symm, (decide_eq_true (by omega)).symm, (if_neg (by omega)).symm,
      (if_neg (by omega)).symm, iff_of_false (by simp [inFrame]) (by omega)⟩
  · rw [show 9 + 32 * s.cfg.H + 1 = 10 + 32 * s.cfg.H by omega, h.ended.1]
    exact ⟨(decide_eq_false (by omega)).symm, (decide_eq_true (by omega)).symm, (if_neg (by omega)).symm,
      (if_neg (by omega)).symm, iff_of_true rfl rfl⟩

/-- The engine is busy for `16H` edges from each of the two LOAD edges. -/
theorem DataService.busy_at {x : Nat → State} {s : State} {w : Word} (h : DataService x s w) (hb : s.ser.busy = false)
    {k : Nat} (hk : k ≤ 9 + 32 * s.cfg.H) :
    (x (k + 1)).ser.busy =
      decide (3 ≤ k ∧ k < 3 + 16 * s.cfg.H ∨ 5 + 16 * s.cfg.H ≤ k ∧ k < 5 + 32 * s.cfg.H) := by
  rcases dataService_cases (H := s.cfg.H) (k := k + 1) (by omega) with
    e | e | e | e | ⟨n, hn, e⟩ | e | ⟨n, hn, e⟩ | e | e | e | e
  · omega
  · rw [e, h.start.2, hb, decide_eq_false (by omega)]
  · rw [e, h.opened.2, hb, decide_eq_false (by omega)]
  · rw [e, h.fetched.2, hb, decide_eq_false (by omega)]
  · rw [e, (h.high n hn).2, inFlight_busy]
    exact decide_eq_decide.2 (by omega)
  · rw [e, h.between.2, decide_eq_false (by omega)]; rfl
  · rw [e, (h.low n hn).2, inFlight_busy]
    exact decide_eq_decide.2 (by omega)
  · rw [e, h.sent.2, decide_eq_false (by omega)]; rfl
  · rw [e, h.advanced.2, decide_eq_false (by omega)]; rfl
  · rw [e, h.closed.2, decide_eq_false (by omega)]; rfl
  · rw [e, h.ended.2, decide_eq_false (by omega)]; rfl

/-- The TXH_LOAD edge loads the high byte and shows its first bit. -/
theorem DataService.load_high {x : Nat → State} {s : State} {w : Word} (h : DataService x s w) (hH : 1 ≤ s.cfg.H) :
    (x 4).ser.sh = hiByte w ∧ (x 4).ser.mosiQ = w.getLsbD 15 := by
  have hser : (x 4).ser = Serial.start s.cfg.H (hiByte w) := (h.high 0 (Nat.zero_le _)).2.trans (inFlight_zero hH _)
  rw [hser]
  exact ⟨rfl, by simp [Serial.start, hiByte]⟩

/-- The TXL_LOAD edge loads the low byte and shows its first bit. -/
theorem DataService.load_low {x : Nat → State} {s : State} {w : Word} (h : DataService x s w) (hH : 1 ≤ s.cfg.H) :
    (x (6 + 16 * s.cfg.H)).ser.sh = loByte w ∧ (x (6 + 16 * s.cfg.H)).ser.mosiQ = w.getLsbD 7 := by
  have hser : (x (6 + 16 * s.cfg.H)).ser = Serial.start s.cfg.H (loByte w) :=
    (h.low 0 (Nat.zero_le _)).2.trans (inFlight_zero hH _)
  rw [hser]
  exact ⟨rfl, by simp [Serial.start, loByte]⟩

/-! ## The whole of a service under one form (R140 to R143) -/

/-- The frame log of a service under one form is that of its path. -/
theorem frameLog_serveTrace {s : State} (hc : s.cfg.legal = true) (hidx : s.ctl.idx < s.cfg.L) (i : Instr) (n : Nat) :
    frameLog (serveTrace i n s) = pathLog (formMux i) s .empty n := by
  rw [frameLog, serveTrace_eq_path hc hidx, pathLog]

/-- An expiry outside IDLE is an overrun (60_exceptions.md R188). -/
theorem overrunNext_of_expire {s : State} (he : s.expire = true) (hst : s.ctl.st ≠ .idle) : s.overrunNext = true := by
  simp [State.overrunNext, he, hst]

/-- A start edge leaves a tick pending only if an expiry falls on it. -/
theorem path_one_tickPend (f : State → Option Word) {s : State} (hgo : s.go = true) :
    (path f s 1).tmr.tickPend = s.expire :=
  tickPendNext_of_go hgo

/-- Settles O48: from a start edge the form's path is a data service, whose registers are known edge by edge. -/
theorem dataServiceTimeline : Obligations.DataServiceTimeline := by
  intro i t s hi hinv hgo
  have hst := st_idle_of_go hgo
  obtain ⟨hcs, hb, -⟩ := quiet_of_inv_idle hinv hst
  have ⟨hc, _, hidx, _⟩ := hinv
  obtain ⟨-, -, hH, -⟩ := legal_parts hc
  obtain ⟨w, hw⟩ := romRead_some hc t hidx
  have hmux : ∀ u : State, u.cfg = s.cfg → u.ctl.idx = s.ctl.idx → formMux i u = some w := fun u hcfg hui => by
    rw [formMux_of_table hi, hcfg, hui, hw]
  have hserve : DataService (path (formMux i) s) s w :=
    dataService_path hH hidx hgo hb fun u hcfg _ hui _ => hmux u hcfg hui
  refine ⟨w, hw, fun k hk => ?_, ?_⟩
  · obtain ⟨hdbg, hcsN, hword, hui, hidle⟩ := hserve.ctl_at hcs hk
    refine ⟨path (formMux i) s (k + 1), serve_eq_path hc hidx i _, hdbg, hcsN, hword, hserve.busy_at hb hk, ?_, ?_,
      hui, hidle, ?_, fun hlt hexp => ?_⟩
    · rintro rfl
      exact hserve.load_high hH
    · rintro rfl
      rw [show 5 + 16 * s.cfg.H + 1 = 6 + 16 * s.cfg.H by omega]
      exact hserve.load_low hH
    · rintro rfl
      exact path_one_tickPend _ hgo
    · have hinv' : (path (formMux i) s (k + 1)).Inv := path_inv hinv _
      obtain ⟨hc', -, hidx', -⟩ := hinv'
      exact ⟨_, exec_completes hc' hidx' i, overrunNext_of_expire hexp fun h => hlt.ne (hidle.1 h)⟩
  · rw [frameLog_serveTrace hc hidx]
    exact pathLog_dataService hserve hinv hst (hmux _ (path_cfg ..) (by rw [hserve.opened.1]))

/-- Whatever frames there were before, a silent service closes one more, of no bit. -/
theorem doneAt_silentService {f : State → Option Word} {s : State} (h : SilentService (path f s) s)
    (hst : s.ctl.st = .idle) (hmux : f (path f s 2) = none) (cur : Frame) (done : List Frame) :
    doneAt f s cur done 6 = done ++ [[]] := by
  simp [doneAt, nextDone, curAt, nextFrame, hst, h.start.1, h.opened.1, h.skipped.1, h.advanced.1, h.closed.1, hmux]

/-- The frame log of a path that is a silent service: one closed frame of no bit. -/
theorem pathLog_silentService {f : State → Option Word} {s : State} (h : SilentService (path f s) s)
    (hinv : s.Inv) (hst : s.ctl.st = .idle) (hmux : f (path f s 2) = none) :
    pathLog f s .empty 6 = ⟨[[]], none⟩ := by
  obtain ⟨hcs, hb, hsclk⟩ := quiet_of_inv_idle hinv hst
  have htracks := tracks_path (f := f) (tracks_idle hst hcs hb hsclk) 6
  have hclosed := htracks.closed.trans (doneAt_silentService h hst hmux [] [])
  have hopened := htracks.opened
  rw [h.ended.1] at hopened
  exact congrArg₂ FrameLog.mk hclosed hopened

/-- The registers at edge `g + k` of a silent service that starts at edge `g`. -/
theorem SilentService.registers_at {x : Nat → State} {s : State} (h : SilentService x s) (hcs : s.ctl.csNQ = true)
    {k : Nat} (hk : k ≤ 5) :
    (x (k + 1)).ctl.dbgQ = decide (k < 5) ∧ (x (k + 1)).ctl.csNQ = decide (k < 1 ∨ 4 ≤ k) ∧
    (x (k + 1)).ctl.wordQ = s.ctl.wordQ ∧ (x (k + 1)).ser = s.ser ∧
    (x (k + 1)).ctl.idx = (if k < 3 then s.ctl.idx else (s.ctl.idx + 1) % s.cfg.L) ∧
    ((x (k + 1)).ctl.st = .idle ↔ k = 5) := by
  interval_cases k
  · simp [h.start, hcs]
  · simp [h.opened]
  · simp [h.skipped]
  · simp [h.advanced]
  · simp [h.closed]
  · simp [h.ended]

/-- Settles O49: from a start edge the path of SVC_NONE is a silent service. -/
theorem silentServiceTimeline : Obligations.SilentServiceTimeline := by
  intro c s hinv hgo
  have hst := st_idle_of_go hgo
  obtain ⟨hcs, hb, -⟩ := quiet_of_inv_idle hinv hst
  have ⟨hc, _, hidx, _⟩ := hinv
  have hserve : SilentService (path (formMux (.svcNone c)) s) s :=
    silentService_path hidx hgo hb fun _ _ _ _ => rfl
  refine ⟨fun k hk => ?_, ?_⟩
  · obtain ⟨hdbg, hcsN, hword, hser, hui, hidle⟩ := hserve.registers_at hcs hk
    refine ⟨path (formMux (.svcNone c)) s (k + 1), serve_eq_path hc hidx _ _, hdbg, hcsN, hword, hser, by rw [hser, hb],
      hui, hidle, ?_⟩
    rintro rfl
    exact path_one_tickPend _ hgo
  · rw [frameLog_serveTrace hc hidx]
    exact pathLog_silentService hserve hinv hst rfl

/-! ## The service of the running block (R139, R144, R149, R150) -/

/-- Settles O50: the code in `sync2` at SELECT is the one captured at the start edge, so the run's path is a data service or
a silent one as that code is defined or not. -/
theorem serviceRunsTheCodeOfItsStartEdge : Obligations.ServiceRunsTheCodeOfItsStartEdge := by
  intro s hinv hgo
  have hst := st_idle_of_go hgo
  obtain ⟨-, hb, -⟩ := quiet_of_inv_idle hinv hst
  have ⟨hc, _, hidx, _⟩ := hinv
  obtain ⟨-, -, hH, -⟩ := legal_parts hc
  refine ⟨fun t ht hr => ?_, fun hnone hr => ?_⟩
  · obtain ⟨w, hw⟩ := romRead_some hc t hidx
    have hserve : DataService (path shownWord s) s w := dataService_path hH hidx hgo hb fun u hcfg _ hui hcode => by
      rw [shownWord_of_table (t := t) (by rw [hcfg, hcode, ht]), hcfg, hui, hw]
    exact ⟨w, path shownWord s (10 + 32 * s.cfg.H), hw, run_eq_path hc hidx hr le_rfl, by rw [hserve.ended.1],
      by rw [hserve.ended.1], frameLog_of_defined_code hinv hgo hr ht hw⟩
  · have hmux : ∀ u : State, u.cfg = s.cfg → u.sync2 = s.captured → shownWord u = none := fun u hcfg hcode =>
      shownWord_of_table_eq_none (by rw [hcfg, hcode, hnone])
    have hserve : SilentService (path shownWord s) s :=
      silentService_path hidx hgo hb fun u hcfg _ hcode => hmux u hcfg hcode
    refine ⟨path shownWord s 6, run_eq_path hc hidx hr le_rfl, by rw [hserve.ended.1], by rw [hserve.ended.1], ?_⟩
    rw [frameLog_trace hc hidx hr]
    exact pathLog_silentService hserve hinv hst (hmux _ (path_cfg ..) (path_sync2 ..))

end Sys2Proof.Machine

/-! # The serial engine: an edge by its cases, a byte from start to end, the log of a whole run (43_serial_tx.md) -/

namespace Sys2Proof.Machine

/-! ## An edge of the engine (R164, R166, R167) -/

theorem shift_of_divcnt_pos {e : Serial} (h : 0 < e.divcnt) (H : Nat) :
    e.shift H = { e with divcnt := e.divcnt - 1 } :=
  if_pos h

theorem shift_of_divcnt_eq_zero {e : Serial} (h : e.divcnt = 0) (H : Nat) : e.shift H = e.toggle H :=
  if_neg h.not_gt

theorem toggle_of_clock_low {e : Serial} (h : e.sclkQ = false) (H : Nat) :
    e.toggle H = { e with divcnt := H - 1, sclkQ := true } :=
  if_pos h

/-- On a falling clock the last bit ends the byte. -/
theorem toggle_of_last_bit {e : Serial} (h : e.sclkQ = true) (hlast : e.bitcnt = 7#3) (H : Nat) :
    e.toggle H = { e with divcnt := H - 1, sclkQ := false, busy := false } := by
  rw [Serial.toggle, if_neg (by simp [h]), if_pos hlast]

/-- On a falling clock any other bit is followed by the next one. -/
theorem toggle_of_not_last_bit {e : Serial} (h : e.sclkQ = true) (hlast : e.bitcnt ≠ 7#3) (H : Nat) :
    e.toggle H = { e with divcnt := H - 1, sclkQ := false, bitcnt := e.bitcnt + 1#3, sh := e.sh <<< 1,
                          mosiQ := e.sh.getLsbD 6 } := by
  rw [Serial.toggle, if_neg (by simp [h]), if_neg hlast]

/-- A byte in flight moves on where no start command is issued. -/
theorem edge_ser_of_busy {s : State} (hl : s.ctl.st.isIllegal = false)
    (hload : s.ctl.st ≠ .txhLoad ∧ s.ctl.st ≠ .txlLoad) (hb : s.ser.busy = true) (m : Option Word) :
    (s.edge m).ser = s.ser.shift s.cfg.H :=
  serial_next_shift hl ((txStart_eq_none_iff _).2 hload) hb

/-- Settles O37: the engine holds with no byte in flight and no start command, and under the invariant its clock is high
only with a byte in flight. -/
theorem idleEngineHolds : Obligations.IdleEngineHolds := by
  intro s u hr hl hb hhi hlo hu
  refine ⟨?_, fun ⟨_, _, _, _, _, _, _, hclk⟩ => ?_⟩
  · rw [step_eq_edge hr hu]
    exact edge_ser_of_idle rfl ⟨hl, hhi, hlo⟩ hb _
  · exact Bool.eq_false_iff.2 fun hs => nomatch hb.symm.trans (hclk hs)

/-- Settles O38: the byte in flight moves on by one count of the divider. -/
theorem dividerCountsDown : Obligations.DividerCountsDown := by
  intro s u hr hl hb hhi hlo hdiv hu
  rw [step_eq_edge hr hu, edge_ser_of_busy hl ⟨hhi, hlo⟩ hb, shift_of_divcnt_pos hdiv]

/-- Settles O39: with the divider at 0 the byte in flight moves on by a toggle, which has three cases. -/
theorem serialClockToggles : Obligations.SerialClockToggles := by
  intro s u hr hl hb hhi hlo hdiv hu
  rw [step_eq_edge hr hu, edge_ser_of_busy hl ⟨hhi, hlo⟩ hb, shift_of_divcnt_eq_zero hdiv]
  exact ⟨fun h => toggle_of_clock_low h _, fun h hlast => toggle_of_last_bit h hlast _,
    fun h hlast => toggle_of_not_last_bit h hlast _⟩

/-! ## A whole byte (R169, R171) -/

/-- The clock is high in the odd half periods, and low once the byte is out. -/
theorem inFlight_sclkQ {H : Nat} (hH : 1 ≤ H) (d : Byte) {n : Nat} (hn : n ≤ 16 * H) :
    (inFlight H d n).sclkQ = decide (n / H % 2 = 1) := by
  rcases hn.lt_or_eq with hlt | rfl
  · rw [inFlight, if_pos hlt]
    rfl
  · rw [inFlight_end, Nat.mul_div_cancel _ hH]
    rfl

/-- Each bit is on the wire for two half periods, and the last one stays. -/
theorem inFlight_mosiQ {H : Nat} (hH : 1 ≤ H) (d : Byte) {n : Nat} (hn : n ≤ 16 * H) :
    (inFlight H d n).mosiQ = d.getLsbD (7 - min 7 (n / (2 * H))) := by
  rw [Nat.mul_comm 2 H, ← Nat.div_div_eq_div_mul]
  rcases hn.lt_or_eq with hlt | rfl
  · have hhalf : n / H < 16 := (Nat.div_lt_iff_lt_mul hH).2 hlt
    rw [inFlight, if_pos hlt, Nat.min_eq_right (by omega)]
    rfl
  · rw [inFlight_end, Nat.mul_div_cancel _ hH]
    rfl

/-- A run without reset that meets no SELECT edge follows any path: no edge of it reads a word. -/
theorem run_eq_path_of_ne_select {f : State → Option Word} {s : State} {n : Nat} (hr : s.noReset n)
    (hsel : ∀ k, k < n → (path f s k).ctl.st ≠ .select) : run n s = .next (path f s n) := by
  induction n with
  | zero => rfl
  | succ n ih =>
    have hrst : (path f s n).pins.rst = false := by
      rw [State.pins, path_pinsAt]
      exact hr n n.lt_succ_self
    refine run_snoc (ih (fun k hk => hr k (by omega)) fun k hk => hsel k (by omega)) ?_
    rw [step_exec hrst]
    exact exec_of_ne_select (hsel n n.lt_succ_self) _ _

/-- From an edge that starts byte `d` and leads to a WAIT state, the run stays in that state for the whole byte. -/
theorem run_of_load {s : State} {c : Scheduler} {d : Byte} (hH : 1 ≤ s.cfg.H) (hr : s.noReset (16 * s.cfg.H + 1))
    (hst : s.ctl.st ≠ .select) (hw : c.st.waits = true)
    (hload : (s.edge none).ctl = c ∧ (s.edge none).ser = Serial.start s.cfg.H d) {n : Nat} (hn : n ≤ 16 * s.cfg.H) :
    ∃ u, run (n + 1) s = .next u ∧ u.ser = inFlight s.cfg.H d n := by
  have hwait := path_wait (f := fun _ => none) (a := 1) hH hw hload
  refine ⟨path (fun _ => none) s (n + 1), run_eq_path_of_ne_select (fun k hk => hr k (by omega)) fun k hk => ?_, ?_⟩
  · cases k with
    | zero => exact hst
    | succ k =>
      rw [Nat.add_comm, (hwait k (by omega)).1]
      intro hsel
      rw [hsel] at hw
      contradiction
  · rw [Nat.add_comm, (hwait n hn).2]

/-- Settles O40: from either LOAD state the engine runs through the closed form of the byte it starts. -/
theorem byteTakesSixteenHalfPeriods : Obligations.ByteTakesSixteenHalfPeriods := by
  intro s d hH hr hload n hn
  have hrun : ∃ u, run (n + 1) s = .next u ∧ u.ser = inFlight s.cfg.H d n := by
    rcases hload with ⟨hst, rfl⟩ | ⟨hst, rfl⟩
    · exact run_of_load hH hr (by rw [hst]; decide) rfl ⟨next_txhLoad hst, edge_ser_of_txhLoad hst none⟩ hn
    · exact run_of_load hH hr (by rw [hst]; decide) rfl ⟨next_txlLoad hst, edge_ser_of_txlLoad hst none⟩ hn
  obtain ⟨u, hu, hser⟩ := hrun
  refine ⟨u, hu, ?_⟩
  rw [hser]
  exact ⟨inFlight_busy d n, inFlight_sclkQ hH d hn, inFlight_mosiQ hH d hn⟩

/-! ## The frames of a list of services (R177) -/

/-- The frames of the services that read `codes`, in order from reset: the n-th at index `n mod L`. -/
def serviceFrames (c : Config) (codes : List Code) : List Frame :=
  codes.zipIdx.map fun p => serviceFrame c p.1 (p.2 % c.L)

theorem serviceFrames_length (c : Config) (codes : List Code) : (serviceFrames c codes).length = codes.length := by
  rw [serviceFrames, List.length_map, List.length_zipIdx]

theorem serviceFrames_snoc (c : Config) (codes : List Code) (code : Code) :
    serviceFrames c (codes ++ [code]) = serviceFrames c codes ++ [serviceFrame c code (codes.length % c.L)] := by
  simp [serviceFrames, List.zipIdx_append]

/-- The first frames are those of the codes read first. -/
theorem serviceFrames_take (c : Config) (codes : List Code) (n : Nat) :
    serviceFrames c (codes.take n) = (serviceFrames c codes).take n := by
  refine List.ext_getElem? fun k => ?_
  simp only [serviceFrames, List.getElem?_map, List.getElem?_zipIdx, List.getElem?_take]
  split <;> rfl

/-- A service's frame is a word's 16 bits, or no bit. -/
theorem serviceFrame_length (c : Config) (code : Code) (i : Nat) :
    (serviceFrame c code i).length = 16 ∨ (serviceFrame c code i).length = 0 := by
  unfold serviceFrame
  split
  · split
    · exact .inl rfl
    · exact .inr rfl
  · exact .inr rfl

theorem length_of_mem_serviceFrames {c : Config} {codes : List Code} {fr : Frame} (h : fr ∈ serviceFrames c codes) :
    fr.length = 16 ∨ fr.length = 0 := by
  obtain ⟨p, -, rfl⟩ := List.mem_map.1 h
  exact serviceFrame_length ..

/-! ## The frames along a run -/

/-- The states in which a service has read its code and its frame is not closed yet. -/
def Phase.frameKnown (p : Phase) : Bool := p.frameOpen && decide (p ≠ .select)

/-- A service's frame is known from its SELECT edge to its DEASSERT_CS edge. -/
theorem next_frameKnown (L : Nat) (go busy : Bool) (mux : Option Word) (c : Scheduler) :
    (c.next L go busy mux).st.frameKnown =
      (decide (c.st = .select) || c.st.frameKnown && decide (c.st ≠ .deassertCs)) := by
  cases hst : c.st
  case idle => rw [next_idle hst]; cases go <;> simp [Scheduler.enter, hst, Phase.frameKnown, Phase.frameOpen]
  case assertCs => rw [next_assertCs hst]; rfl
  case select => rw [next_select hst]; cases mux <;> rfl
  case txhLoad => rw [next_txhLoad hst]; rfl
  case txhWait => rw [next_txhWait hst]; cases busy <;> simp [hst, Phase.frameKnown, Phase.frameOpen]
  case txlLoad => rw [next_txlLoad hst]; rfl
  case txlWait => rw [next_txlWait hst]; cases busy <;> simp [hst, Phase.frameKnown, Phase.frameOpen]
  case advance => rw [next_advance hst]; rfl
  case deassertCs => rw [next_deassertCs hst]; rfl
  case exit => rw [next_exit hst]; rfl
  case illegal k => rw [next_illegal hst]; rfl

/-- DEASSERT_CS is entered from ADVANCE alone. -/
theorem next_eq_deassertCs_iff (L : Nat) (go busy : Bool) (mux : Option Word) (c : Scheduler) :
    (c.next L go busy mux).st = .deassertCs ↔ c.st = .advance := by
  cases hst : c.st
  case idle => rw [next_idle hst]; cases go <;> simp [Scheduler.enter, hst]
  case assertCs => simp [next_assertCs hst]
  case select => rw [next_select hst]; cases mux <;> simp [Scheduler.dispatch]
  case txhLoad => simp [next_txhLoad hst]
  case txhWait => rw [next_txhWait hst]; cases busy <;> simp [hst]
  case txlLoad => simp [next_txlLoad hst]
  case txlWait => rw [next_txlWait hst]; cases busy <;> simp [hst]
  case advance => simp [next_advance hst]
  case deassertCs => simp [next_deassertCs hst]
  case exit => simp [next_exit hst, Scheduler.leave]
  case illegal k => simp [next_illegal hst]

/-- At SELECT an edge fixes the bits of the word shown, or no bit. -/
theorem nextFrame_eq_elim {s : State} (hst : s.ctl.st = .select) (m : Option Word) (cur : Frame) :
    nextFrame s m cur = m.elim [] wordBits := by
  cases m with
  | none => exact if_pos hst
  | some w => exact if_pos hst

/-- The frame of a defined code is the bits of the word read, or no bit. -/
theorem serviceFrame_eq_elim {c : Config} {code : Code} {t : Table} (h : c.selMap.table code = some t) (i : Nat) :
    serviceFrame c code i = (romRead c t i).elim [] wordBits := by
  cases hw : romRead c t i with
  | none => simp only [serviceFrame, h, hw, Option.elim_none]
  | some w => simp only [serviceFrame, h, hw, Option.elim_some]

theorem serviceFrame_of_table_eq_none {c : Config} {code : Code} (h : c.selMap.table code = none) (i : Nat) :
    serviceFrame c code i = [] := by
  simp only [serviceFrame, h]

/-- At SELECT the frame a step fixes is that of the code in `sync2` at the index. -/
theorem nextFrame_of_select {s : State} (hst : s.ctl.st = .select) (cur : Frame) :
    nextFrame s (shownWord s) cur = serviceFrame s.cfg s.sync2 s.ctl.idx := by
  rw [nextFrame_eq_elim hst]
  cases htable : s.cfg.selMap.table s.sync2 with
  | none => rw [shownWord_of_table_eq_none htable, serviceFrame_of_table_eq_none htable, Option.elim_none]
  | some t => rw [shownWord_of_table htable, serviceFrame_eq_elim htable]

/-- How the codes read so far, the frame being built and the closed frames hang together: the closed frames, and the one
known but not closed yet, are the codes' frames, and the index counts the closed frames, one early after ADVANCE. -/
structure FramesInOrder (s : State) (codes : List Code) (cur : Frame) (done : List Frame) : Prop where
  frames : serviceFrames s.cfg codes = done ++ if s.ctl.st.frameKnown = true then [cur] else []
  idx : s.ctl.idx = (done.length + if s.ctl.st = .deassertCs then 1 else 0) % s.cfg.L

/-- The codes read after an edge. -/
def nextCodes (s : State) (codes : List Code) : List Code :=
  codes ++ if s.ctl.st = .select then [s.sync2] else []

theorem nextDone_length (s : State) (cur : Frame) (done : List Frame) :
    (nextDone s cur done).length = done.length + if s.ctl.st = .deassertCs then 1 else 0 := by
  unfold nextDone
  split <;> simp

/-- One edge keeps the frames in order: SELECT makes the frame of its code known, DEASSERT_CS closes it. -/
theorem framesInOrder_edge {s : State} {codes : List Code} {cur : Frame} {done : List Frame}
    (h : FramesInOrder s codes cur done) (hidx : s.ctl.idx < s.cfg.L) :
    FramesInOrder (s.edge (shownWord s)) (nextCodes s codes) (nextFrame s (shownWord s) cur) (nextDone s cur done) := by
  obtain ⟨hframes, hui⟩ := h
  constructor
  case idx =>
    rw [edge_idx hidx, edge_cfg, nextDone_length, hui, Nat.mod_add_mod, edge_ctl]
    simp only [next_eq_deassertCs_iff]
  case frames =>
    rw [edge_cfg, edge_ctl, next_frameKnown]
    by_cases hsel : s.ctl.st = .select
    · -- The frames so far are all closed, so the index is the number of codes read.
      have hdone : serviceFrames s.cfg codes = done := by simpa [hsel, Phase.frameKnown] using hframes
      have hlen : codes.length % s.cfg.L = s.ctl.idx := by
        rw [← serviceFrames_length s.cfg, hdone, hui, hsel, if_neg (by decide), Nat.add_zero]
      rw [nextFrame_of_select hsel, nextCodes, if_pos hsel, serviceFrames_snoc, hdone, hlen]
      simp [nextDone, hsel]
    · by_cases hclose : s.ctl.st = .deassertCs
      · simpa [nextCodes, nextFrame, nextDone, hclose, Phase.frameKnown, Phase.frameOpen] using hframes
      · simpa [nextCodes, nextFrame, nextDone, hsel, hclose] using hframes

theorem framesInOrder_idle {s : State} (hst : s.ctl.st = .idle) (hidx : s.ctl.idx = 0) : FramesInOrder s [] [] [] where
  frames := by rw [hst]; rfl
  idx := by rw [hst, hidx]; exact (Nat.zero_mod _).symm

/-- The frames of a run from an idle state with index 0 stay in order. -/
theorem framesInOrder_path {s : State} (hst : s.ctl.st = .idle) (hzero : s.ctl.idx = 0) (hL : 0 < s.cfg.L) (n : Nat) :
    FramesInOrder (path shownWord s n) (selectedCodes ((List.range (n + 1)).map (path shownWord s)))
      (curAt shownWord s [] n) (doneAt shownWord s [] [] n) := by
  induction n with
  | zero => exact framesInOrder_idle hst hzero
  | succ n ih =>
    have hidx : (path shownWord s n).ctl.idx < (path shownWord s n).cfg.L := by
      rw [path_cfg]
      exact path_idx_lt (hzero ▸ hL) n
    rw [selectedCodes_path]
    exact framesInOrder_edge ih hidx

/-- Settles O55: the log's closed frames are those of the path, which are the codes' frames but for one not closed yet;
chip-select is low as long as there is one. -/
theorem frameLogIsTheServicesInOrder : Obligations.FrameLogIsTheServicesInOrder := by
  intro s n hc hreset hr
  have hinv := inv_of_atReset hc hreset
  have ⟨_, _, hidx, _⟩ := hinv
  have hu : run n s = .next (path shownWord s n) := run_eq_path hc hidx hr le_rfl
  obtain ⟨-, hst, hzero, -, -⟩ := run_of_atReset hc hreset hr hu
  obtain ⟨hcs, hb, hsclk⟩ := quiet_of_inv_idle hinv hst
  have htracks := tracks_path (f := shownWord) (tracks_idle hst hcs hb hsclk) n
  have ⟨hframes, _⟩ := framesInOrder_path hst hzero (hzero ▸ hidx) n
  rw [path_cfg, ← htracks.closed, ← frameLog_trace hc hidx hr, ← trace_eq_path hc hidx hr] at hframes
  refine ⟨_, hu, ?_, fun hhigh => ?_, fun fr hfr => ?_⟩
  · refine Eq.trans ?_ (serviceFrames_take ..).symm
    rw [hframes, List.take_left]
  · have hopen : (path shownWord s n).ctl.st.frameOpen = false := by
      simpa [hhigh] using htracks.csN
    rw [Phase.frameKnown, hopen, Bool.false_and, if_neg Bool.false_ne_true, List.append_nil] at hframes
    rw [← hframes, serviceFrames_length]
  · exact length_of_mem_serviceFrames (hframes ▸ List.mem_append_left _ hfr)

end Sys2Proof.Machine

/-! # The tick interrupt: the timer and its flags, masking, overruns, and that nothing traps (60_exceptions.md) -/

namespace Sys2Proof.Machine

/-! ## No trap (R186) -/

/-- A step of legal parameters answers a next state while the index is in range, with reset asserted too. -/
theorem step_completes {s : State} (hc : s.cfg.legal = true) (hidx : s.ctl.idx < s.cfg.L) :
    ∃ t, step s = .next t := by
  cases hr : s.pins.rst
  · exact ⟨_, (step_exec hr).trans (exec_completes hc hidx _)⟩
  · exact ⟨_, step_reset hr⟩

/-- Settles O7: every form finds its word at an index in range, and a reset edge reads none. -/
theorem noCodeWordOrIndexTraps : Obligations.NoCodeWordOrIndexTraps :=
  fun _ hc hidx => ⟨fun i => ⟨_, exec_completes hc hidx i⟩, step_completes hc hidx⟩

/-! ## The tick timer (R196 to R198) -/

theorem tcntNext_stopped (P n : Nat) : tcntNext P false n = n := rfl

theorem tcntNext_reload (P : Nat) : tcntNext P true 0 = P - 1 := rfl

theorem tcntNext_countdown {n : Nat} (h : n ≠ 0) (P : Nat) : tcntNext P true n = n - 1 := by
  rw [tcntNext, if_pos rfl, if_neg h]

theorem expire_of_stopped {s : State} (h : s.pins.timerRun = false) : s.expire = false := by
  rw [State.expire, h, Bool.false_and]

theorem expire_of_running {s : State} (h : s.pins.timerRun = true) : s.expire = decide (s.tmr.tcnt = 0) := by
  rw [State.expire, h, Bool.true_and]

theorem tickPendNext_of_expire {s : State} (h : s.expire = true) : s.tickPendNext = true := by
  rw [State.tickPendNext, h, Bool.true_or]

/-- With neither an expiry nor a start edge the pending flag keeps its value, set or clear (R197). -/
theorem tickPendNext_of_quiet {s : State} (he : s.expire = false) (hgo : s.go = false) :
    s.tickPendNext = s.tmr.tickPend := by
  rw [State.tickPendNext, he, hgo, Bool.false_or, Bool.not_false, Bool.and_true]

/-- Settles O41: the timer is stopped, or it reloads at 0, or it counts down. -/
theorem timerCountsDownAndReloads : Obligations.TimerCountsDownAndReloads := by
  intro s u hr hu
  rw [step_eq_edge hr hu, edge_tmr, timerNext_tcnt, timerNext_tickPend]
  refine ⟨fun hstop => ?_, fun hrun hzero => ?_, fun hrun hpos => ?_⟩
  · have hexpire := expire_of_stopped hstop
    exact ⟨by rw [hstop, tcntNext_stopped], hexpire, tickPendNext_of_quiet hexpire⟩
  · have hexpire : s.expire = true := (expire_of_running hrun).trans (decide_eq_true hzero)
    exact ⟨by rw [hrun, hzero, tcntNext_reload], hexpire, tickPendNext_of_expire hexpire⟩
  · exact ⟨by rw [hrun, tcntNext_countdown hpos], (expire_of_running hrun).trans (decide_eq_false hpos)⟩

/-- The residue of an edge number goes up by one, and from `P - 1` back to 0. -/
theorem succ_mod_eq_ite {P : Nat} (hP : 1 ≤ P) (k : Nat) : (k + 1) % P = if k % P = P - 1 then 0 else k % P + 1 := by
  have hlt : k % P < P := Nat.mod_lt k hP
  rw [← Nat.mod_add_mod]
  split_ifs with h
  · rw [h, Nat.sub_add_cancel hP, Nat.mod_self]
  · exact Nat.mod_eq_of_lt (by omega)

/-- The count goes through the residues of the edge number, downwards from `P - 1`. -/
theorem tcntNext_residue {P : Nat} (hP : 1 ≤ P) (k : Nat) :
    tcntNext P true (P - 1 - k % P) = P - 1 - (k + 1) % P := by
  have hlt : k % P < P := Nat.mod_lt k hP
  rw [succ_mod_eq_ite hP]
  split_ifs with h
  · rw [h, Nat.sub_self, tcntNext_reload, Nat.sub_zero]
  · rw [tcntNext_countdown (by omega), Nat.sub_sub]

/-- The count after `k` edges of a held timer that starts full. -/
theorem path_tcnt {f : State → Option Word} {s : State} (hP : 1 ≤ s.cfg.P) (hfull : s.tmr.tcnt = s.cfg.P - 1) {k : Nat}
    (hrun : ∀ j, j < k → (s.pinsAt j).timerRun = true) : (path f s k).tmr.tcnt = s.cfg.P - 1 - k % s.cfg.P := by
  induction k with
  | zero => rw [path_zero, hfull, Nat.zero_mod, Nat.sub_zero]
  | succ k ih =>
    have hheld : (path f s k).pins.timerRun = true := by
      rw [State.pins, path_pinsAt]
      exact hrun k k.lt_succ_self
    rw [path_succ, edge_tmr, timerNext_tcnt, hheld, ih fun j hj => hrun j (by omega), path_cfg, tcntNext_residue hP]

/-- The count is 0 exactly before every `P`-th edge. -/
theorem residue_eq_zero_iff {P : Nat} (hP : 1 ≤ P) (k : Nat) : P - 1 - k % P = 0 ↔ (k + 1) % P = 0 := by
  have hlt : k % P < P := Nat.mod_lt k hP
  rw [succ_mod_eq_ite hP]
  split_ifs with h
  · exact iff_of_true (by rw [h, Nat.sub_self]) rfl
  · exact iff_of_false (by omega) id

/-- Settles O42: the count along the run is known, and the held timer expires where it is 0. -/
theorem timerExpiresEveryPEdges : Obligations.TimerExpiresEveryPEdges := by
  intro s n ⟨hc, _, hidx, _⟩ hfull hpins k hk
  obtain ⟨-, hP, -⟩ := legal_parts hc
  have hheld : (path shownWord s k).pins.timerRun = true := by
    rw [State.pins, path_pinsAt]
    exact (hpins k hk).2
  refine ⟨path shownWord s k, run_eq_path hc hidx (fun j hj => (hpins j hj).1) hk.le, ?_⟩
  rw [expire_of_running hheld, path_tcnt hP hfull fun j hj => (hpins j (hj.trans hk)).2]
  exact decide_eq_decide.2 (residue_eq_zero_iff hP k)

/-! ## Masking (R191) -/

/-- Settles O43: at every edge an enable is 0, and IDLE holds without the start condition. -/
theorem maskedTickStaysPending : Obligations.MaskedTickStaysPending := by
  intro s n hinv hst hpend hr hmask
  obtain ⟨-, hb, -⟩ := quiet_of_inv_idle hinv hst
  clear hinv
  induction n generalizing s with
  | zero => exact ⟨s, rfl, hpend, rfl, rfl⟩
  | succ n ih =>
    obtain ⟨t, ht, hctl, hser, hkeep, -⟩ :=
      idleHoldsWithoutStartCondition s.fetched s hst hb (.inr (hmask 0 n.succ_pos))
    have hstep : step s = .next t := (step_exec (noReset_first hr)).trans ht
    rw [run_succ hstep, ← hctl, ← hser]
    refine ih t (hctl ▸ hst) (hkeep hpend) (noReset_step hstep hr) (fun k hk => ?_) (hser ▸ hb)
    rw [step_pinsAt hstep]
    exact hmask (k + 1) (Nat.succ_lt_succ hk)

/-! ## The overrun flag (R188 to R190) -/

/-- The flag stays set through every run without reset. -/
theorem run_overrun {s u : State} {n : Nat} (h : s.tmr.overrunQ = true) (hr : s.noReset n) (hu : run n s = .next u) :
    u.tmr.overrunQ = true := by
  induction n generalizing s with
  | zero => cases hu; exact h
  | succ n ih =>
    obtain ⟨t, ht, hu⟩ := run_succ_inv hu
    refine ih ?_ (noReset_step ht hr) hu
    rw [step_eq_edge (noReset_first hr) ht]
    exact overrunNext_of_overrun h

/-- The machine with its overrun flag replaced. -/
def State.withOverrun (s : State) (b : Bool) : State := { s with tmr := { s.tmr with overrunQ := b } }

/-- Only the flag's own next value reads the flag. -/
theorem edge_withOverrun (s : State) (b : Bool) (m : Option Word) :
    (s.withOverrun b).edge m = (s.edge m).withOverrun (s.withOverrun b).overrunNext := rfl

theorem serviceAlike_withOverrun (s : State) (b : Bool) : ServiceAlike s (s.withOverrun b) :=
  ⟨rfl, rfl, rfl, fun _ => rfl, fun _ => rfl⟩

/-- Settles O44: no edge without reset clears the flag, and machines that differ in it alone take the same edge. -/
theorem overrunIsStickyAndPassive : Obligations.OverrunIsStickyAndPassive := by
  refine ⟨fun s u n => run_overrun, fun s u b hr hu => ?_⟩
  obtain ⟨m, rfl, hstep⟩ := (serviceAlike_withOverrun s b).same_edge hr hr hu
  exact ⟨(s.withOverrun b).overrunNext, hstep.trans (congrArg _ (edge_withOverrun s b m))⟩

/-! ## Simultaneous events (R193) -/

/-- An expiry while a tick is pending is an overrun (R188). -/
theorem overrunNext_of_expire_pending {s : State} (he : s.expire = true) (hp : s.tmr.tickPend = true) :
    s.overrunNext = true := by
  rw [State.overrunNext, he, hp, Bool.true_or, Bool.true_and, Bool.or_true]

/-- A step without reset is the same under every code outside SELECT. -/
theorem step_of_ne_select {s : State} (hr : s.pins.rst = false) (hst : s.ctl.st ≠ .select) (m : Option Word) :
    step s = .next (s.edge m) :=
  (step_exec hr).trans (exec_of_ne_select hst _ m)

/-- A start edge enters the service. -/
theorem step_of_go {s : State} (hr : s.pins.rst = false) (hgo : s.go = true) :
    step s = .next (s.edge none) ∧ (s.edge none).ctl.st = .assertCs := by
  refine ⟨step_of_ne_select hr ?_ none, by rw [edge_ctl_of_go hgo]; rfl⟩
  rw [st_idle_of_go hgo]
  decide

/-- Settles O45: the start condition needs a tick pending, which makes the expiry an overrun. -/
theorem expiryAtStartEdgeOverruns : Obligations.ExpiryAtStartEdgeOverruns := by
  intro s hr hgo he
  obtain ⟨hstep, hassert⟩ := step_of_go hr hgo
  obtain ⟨-, hpend, -⟩ := (go_eq_true_iff s).1 hgo
  exact ⟨s.edge none, hstep, hassert, tickPendNext_of_expire he, overrunNext_of_expire_pending he hpend⟩

/-- Settles O46: the EXIT edge returns to IDLE with the new tick pending, and the enables there make it a start edge. -/
theorem expiryAtExitOverrunsAndIsServedNext : Obligations.ExpiryAtExitOverrunsAndIsServedNext := by
  intro s hr hst he hie hgie
  have hexit : step s = .next (s.edge none) := step_of_ne_select (noReset_first hr) (by rw [hst]; decide) none
  have hidle : (s.edge none).ctl.st = .idle := by rw [edge_ctl, next_exit hst]; rfl
  have hpend : (s.edge none).tmr.tickPend = true := tickPendNext_of_expire he
  have hpins : (s.edge none).pins = s.pinsAt 1 := edge_pinsAt s none 0
  have hgo : (s.edge none).go = true :=
    (go_eq_true_iff _).2 ⟨hidle, hpend, hpins ▸ hie, hpins ▸ hgie⟩
  obtain ⟨hstart, hassert⟩ := step_of_go (noReset_first (noReset_step hexit hr)) hgo
  have hrun : run 1 s = .next (s.edge none) := run_succ hexit 0
  exact ⟨_, _, hrun, hidle, overrunNext_of_expire he (by rw [hst]; decide), hpend, run_snoc hrun hstart, hassert⟩

end Sys2Proof.Machine

/-! # Reset, and the timing envelope (70_reset_and_hazards.md) -/

namespace Sys2Proof.Machine

/-! ## Reset (R216 to R218) -/

theorem resetEdge_atReset (s : State) : s.resetEdge.atReset := ⟨rfl, rfl, rfl, rfl, rfl⟩

/-- The output pins are driven by registers alone, so those after reset decide them (10_state.md R20). -/
theorem outputs_of_atReset {s : State} (h : s.atReset) : s.outputs = ⟨false, true, false, false, false⟩ := by
  obtain ⟨hctl, htmr, hser, -, -⟩ := h
  rw [State.outputs, hctl, htmr, hser]
  rfl

/-- Settles O1: a step with reset asserted is the reset edge, which writes each register as listed. -/
theorem resetEdgeWritesEveryRegister : Obligations.ResetEdgeWritesEveryRegister :=
  fun _ hr => ⟨_, step_reset hr, rfl, rfl, rfl, rfl, rfl, rfl, rfl, rfl, rfl, rfl, rfl, rfl, rfl, rfl, rfl, rfl, rfl⟩

/-- Settles O2: the reset state and the state after a reset edge both hold the registers of reset. -/
theorem resetPinsAreQuiet : Obligations.ResetPinsAreQuiet :=
  ⟨outputs_of_atReset (resetOf_atReset _),
    fun s hr => ⟨s.resetEdge, step_reset hr, outputs_of_atReset (resetEdge_atReset s)⟩⟩

/-- Settles O3, by induction on the edges after the first: each is a reset edge, after which the registers hold their reset
values whatever they held before. -/
theorem heldResetKeepsResetState : Obligations.HeldResetKeepsResetState := by
  intro s n hn hr
  obtain ⟨n, rfl⟩ := Nat.exists_eq_add_one.2 hn
  induction n generalizing s with
  | zero => exact ⟨s.resetEdge, run_succ (step_reset (hr 0 hn)) 0, resetEdge_atReset s, rfl⟩
  | succ n ih =>
    rw [run_succ (step_reset (hr 0 hn))]
    refine ih s.resetEdge n.succ_pos fun k hk => ?_
    rw [resetEdge_pinsAt]
    exact hr (k + 1) (Nat.succ_lt_succ hk)

/-! ## The envelope suffices (R224)

A pending tick stands for `10 + 32H` edges of work, a running service for the edges it still lasts. With the enables at 1
each edge does at least one edge of that work, and the timer counts down by at most one: the work left never exceeds the
count, so at an expiry none is left. -/

/-- A bound on the edges until the block is quiet in IDLE, if no further tick expires and the enables stay at 1. -/
def State.workLeft (s : State) : Nat :=
  edgesLeft s.cfg.H s.ctl s.ser + if s.tmr.tickPend = true then 10 + 32 * s.cfg.H else 0

theorem edgesLeft_of_idle {c : Scheduler} (h : c.st = .idle) (H : Nat) (e : Serial) : edgesLeft H c e = 0 := by
  rw [edgesLeft, h]

theorem edgesLeft_of_assertCs {c : Scheduler} (h : c.st = .assertCs) (H : Nat) (e : Serial) :
    edgesLeft H c e = 9 + 32 * H := by
  rw [edgesLeft, h]

/-- In IDLE the only work left is that of a pending tick. -/
theorem workLeft_of_idle {s : State} (h : s.ctl.st = .idle) :
    s.workLeft = if s.tmr.tickPend = true then 10 + 32 * s.cfg.H else 0 := by
  rw [State.workLeft, edgesLeft_of_idle h, Nat.zero_add]

/-- With no work left the block is in IDLE and no tick is pending. -/
theorem idle_of_workLeft_eq_zero {s : State} (hH : 1 ≤ s.cfg.H) (hl : s.ctl.st.isIllegal = false)
    (h : s.workLeft = 0) : s.ctl.st = .idle ∧ s.tmr.tickPend = false := by
  obtain ⟨hservice, htick⟩ := Nat.add_eq_zero_iff.1 h
  refine ⟨by_contra fun hst => ?_, Bool.eq_false_iff.2 fun hp => ?_⟩
  · have hpos := edgesLeft_next hH hl hst none
    omega
  · rw [if_pos hp] at htick
    omega

/-- An expiry that finds no work left makes that of one service. -/
theorem workLeft_edge_of_expire {s : State} (he : s.expire = true) (hst : s.ctl.st = .idle)
    (hp : s.tmr.tickPend = false) (m : Option Word) : (s.edge m).workLeft = 10 + 32 * s.cfg.H := by
  have hidle : (s.edge m).ctl.st = .idle := by rw [edge_ctl_of_idle hst (go_false_of_not_pending hp), hst]
  have hpend : (s.edge m).tmr.tickPend = true := tickPendNext_of_expire he
  rw [workLeft_of_idle hidle, if_pos hpend, edge_cfg]

/-- An edge without an expiry does at least one edge of the work left, the enables being at 1. -/
theorem workLeft_edge_of_not_expire {s : State} (hH : 1 ≤ s.cfg.H) (hl : s.ctl.st.isIllegal = false)
    (hie : s.pins.tickIe = true) (hgie : s.pins.gie = true) (he : s.expire = false) (m : Option Word) :
    (s.edge m).workLeft ≤ s.workLeft - 1 := by
  by_cases hst : s.ctl.st = .idle
  · have hgo : s.go = s.tmr.tickPend := by rw [go_of_idle hst, hie, hgie, Bool.and_true, Bool.and_true]
    cases hp : s.tmr.tickPend <;> rw [hp] at hgo
    · have hidle : (s.edge m).ctl.st = .idle := by rw [edge_ctl_of_idle hst hgo, hst]
      have hpend : (s.edge m).tmr.tickPend = false := (tickPendNext_of_quiet he hgo).trans hp
      rw [workLeft_of_idle hidle, hpend]
      exact Nat.zero_le _
    · have hstart : (s.edge m).ctl.st = .assertCs := by rw [edge_ctl_of_go hgo]; rfl
      have hpend : (s.edge m).tmr.tickPend = false := (tickPendNext_of_go hgo).trans he
      rw [workLeft_of_idle hst, if_pos hp, State.workLeft, edgesLeft_of_assertCs hstart, hpend, edge_cfg,
        if_neg Bool.false_ne_true]
      omega
  · have hservice := edgesLeft_next hH hl hst m
    have hpend : (s.edge m).tmr.tickPend = s.tmr.tickPend := tickPendNext_of_quiet he (go_false_of_ne_idle hst)
    rw [State.workLeft, State.workLeft, hpend, edge_cfg]
    omega

/-- No overrun so far, and the work left is done before the next expiry. -/
def State.onTime (s : State) : Prop := s.tmr.overrunQ = false ∧ s.workLeft ≤ s.tmr.tcnt

/-- An expiry happens at count 0 and reloads the timer. -/
theorem tcnt_of_expire {s : State} (he : s.expire = true) (m : Option Word) :
    s.tmr.tcnt = 0 ∧ (s.edge m).tmr.tcnt = s.cfg.P - 1 := by
  rw [State.expire, Bool.and_eq_true, decide_eq_true_eq] at he
  obtain ⟨hrun, hzero⟩ := he
  exact ⟨hzero, by rw [edge_tmr, timerNext_tcnt, hrun, hzero, tcntNext_reload]⟩

/-- Without an expiry the timer counts down by at most one. -/
theorem pred_tcnt_le_of_not_expire {s : State} (he : s.expire = false) (m : Option Word) :
    s.tmr.tcnt - 1 ≤ (s.edge m).tmr.tcnt := by
  rw [edge_tmr, timerNext_tcnt]
  cases hrun : s.pins.timerRun
  · rw [tcntNext_stopped]
    exact Nat.sub_le _ _
  · rw [expire_of_running hrun, decide_eq_false_iff_not] at he
    rw [tcntNext_countdown he]

/-- Inside the envelope every edge that is no reset edge keeps the block on time, the enables being at 1. -/
theorem onTime_edge {s : State} (hinv : s.Inv) (hP : conformant s.cfg) (hie : s.pins.tickIe = true)
    (hgie : s.pins.gie = true) (h : s.onTime) (m : Option Word) : (s.edge m).onTime := by
  obtain ⟨hc, hl, -⟩ := hinv
  obtain ⟨-, -, hH, -⟩ := legal_parts hc
  obtain ⟨hno, hwork⟩ := h
  cases he : s.expire
  · have hless := workLeft_edge_of_not_expire hH hl hie hgie he m
    have hcount := pred_tcnt_le_of_not_expire he m
    exact ⟨(overrunNext_eq_false_iff s).2 ⟨hno, fun he' => nomatch he.symm.trans he'⟩, by omega⟩
  · obtain ⟨hzero, hreload⟩ := tcnt_of_expire he m
    obtain ⟨hst, hp⟩ := idle_of_workLeft_eq_zero hH hl (by omega)
    refine ⟨(overrunNext_eq_false_iff s).2 ⟨hno, fun _ => ⟨hp, hst⟩⟩, ?_⟩
    rw [workLeft_edge_of_expire he hst hp, hreload]
    omega

theorem onTime_of_atReset {s : State} (h : s.atReset) : s.onTime := by
  obtain ⟨hctl, htmr, -⟩ := h
  rw [State.onTime, workLeft_of_idle (by rw [hctl]; rfl), htmr]
  exact ⟨rfl, Nat.zero_le _⟩

theorem path_onTime {f : State → Option Word} {s : State} (hinv : s.Inv) (hP : conformant s.cfg) {n : Nat}
    (hpins : ∀ k, k < n → (s.pinsAt k).tickIe = true ∧ (s.pinsAt k).gie = true) (h : s.onTime) :
    (path f s n).onTime := by
  induction n with
  | zero => exact h
  | succ n ih =>
    obtain ⟨hie, hgie⟩ := hpins n n.lt_succ_self
    have hnow : (path f s n).pins = s.pinsAt n := path_pinsAt f s n 0
    exact onTime_edge (path_inv hinv n) (by rwa [path_cfg]) (hnow ▸ hie) (hnow ▸ hgie)
      (ih fun k hk => hpins k (hk.trans n.lt_succ_self)) _

/-- Settles O58: from reset the block is on time, and inside the envelope every edge keeps it so. -/
theorem conformantInstanceNeverOverruns : Obligations.ConformantInstanceNeverOverruns := by
  intro s n hc hP hreset hr hpins
  have hinv := inv_of_atReset hc hreset
  have ⟨_, _, hidx, _⟩ := hinv
  obtain ⟨hno, -⟩ := path_onTime (f := shownWord) hinv hP hpins (onTime_of_atReset hreset)
  exact ⟨path shownWord s n, run_eq_path hc hidx hr le_rfl, hno⟩

/-! ## The envelope is tight (R224) -/

/-- The path of the running block from a start edge that captures a defined code is a data service. -/
theorem exists_dataService {s : State} {t : Table} (hinv : s.Inv) (hgo : s.go = true)
    (ht : s.cfg.selMap.table s.captured = some t) : ∃ w, DataService (path shownWord s) s w := by
  obtain ⟨-, hb, -⟩ := quiet_of_inv_idle hinv (st_idle_of_go hgo)
  obtain ⟨hc, -, hidx, -⟩ := hinv
  obtain ⟨-, -, hH, -⟩ := legal_parts hc
  obtain ⟨w, hw⟩ := romRead_some hc t hidx
  refine ⟨w, dataService_path hH hidx hgo hb fun u hcfg _ hui hcode => ?_⟩
  rw [shownWord_of_table (t := t) (by rw [hcfg, hcode, ht]), hcfg, hui, hw]

/-- A held timer that starts full expires at the `P`-th edge. -/
theorem path_expire_of_period {f : State → Option Word} {s : State} (hP : 1 ≤ s.cfg.P)
    (hfull : s.tmr.tcnt = s.cfg.P - 1) (hrun : ∀ k, k < s.cfg.P → (s.pinsAt k).timerRun = true) :
    (path f s (s.cfg.P - 1)).expire = true := by
  have hlast : s.cfg.P - 1 < s.cfg.P := Nat.sub_lt hP Nat.one_pos
  have hheld : (path f s (s.cfg.P - 1)).pins.timerRun = true := by
    rw [State.pins, path_pinsAt]
    exact hrun _ hlast
  rw [expire_of_running hheld, path_tcnt hP hfull fun k hk => hrun k (hk.trans hlast), Nat.mod_eq_of_lt hlast,
    Nat.sub_self]
  rfl

/-- Settles O59: the service is in EXIT after `P - 1` edges, at which the timer, full at the start edge, expires. -/
theorem envelopeBoundIsTight : Obligations.EnvelopeBoundIsTight := by
  intro s t hinv hP hgo hfull ht hpins
  obtain ⟨w, hserve⟩ := exists_dataService hinv hgo ht
  obtain ⟨hc, -, hidx, -⟩ := hinv
  have hrun {k : Nat} (hk : k ≤ 10 + 32 * s.cfg.H) : run k s = .next (path shownWord s k) :=
    run_eq_path hc hidx (fun j hj => (hpins j hj).1) hk
  have hexit : (path shownWord s (9 + 32 * s.cfg.H)).ctl.st = .exit := by rw [hserve.closed.1]; rfl
  have hexpire : (path shownWord s (9 + 32 * s.cfg.H)).expire = true := by
    rw [show 9 + 32 * s.cfg.H = s.cfg.P - 1 by omega]
    exact path_expire_of_period (by omega) hfull fun k hk => (hpins k (hP ▸ hk)).2
  have hover : (path shownWord s (10 + 32 * s.cfg.H)).faulted = true := by
    rw [show 10 + 32 * s.cfg.H = 9 + 32 * s.cfg.H + 1 by omega]
    exact overrunNext_of_expire hexpire (by rw [hexit]; decide)
  exact ⟨_, _, hrun (by omega), hexit, hexpire, hrun le_rfl, hover, by rw [hserve.ended.1]⟩

end Sys2Proof.Machine
